-- ==== Sys2Proof/Word.lean ====
section
/-!
DEFINITION. The words of the chunk decoder: bytes, cache slot numbers, pixel counts, and the pixel
(spec 00_scope.md R6 and R8, 10_state.md R10).
-/

namespace Sys2Proof

/-- A byte of the input stream, and one colour channel (R6, R10). -/
abbrev Byte := BitVec 8

/-- A cache slot number, 0 to 63 (R8, R37). -/
abbrev Slot := BitVec 6

/-- `size` and `count`: `SIZE_W` = 64 bits (R5, R14, R15; decision D4). -/
abbrev Count := BitVec 64

/-- Four independent 8-bit unsigned channels (R10). -/
structure Pixel where
  r : Byte
  g : Byte
  b : Byte
  a : Byte
  deriving DecidableEq, Repr

end Sys2Proof
end

