-- ==== Sys2Proof/Config.lean ====
section
/-!
DEFINITION. The constants the implementation fixes (spec 00_scope.md R5, 10_state.md R10).
The spec leaves no value open (92_eei_decisions.md, "Open parameters: None is left open"), so there is no free value here.
`RUN_OVERSHOOT` is fixed at `clamp` (R5, R102) and stands in the meaning of RUN.
-/

namespace Sys2Proof

/-- `ZERO`, the all-zero pixel: the cache's initial fill value (R10). -/
def Config.zero : Pixel := ⟨0, 0, 0, 0⟩

/-- `SEED`, opaque-black: the decoder's initial previous pixel (R10). -/
def Config.seed : Pixel := ⟨0, 0, 0, 255⟩

end Sys2Proof
end

