-- ==== Sys2Proof/Syntax.lean ====
section
/-!
DEFINITION. The chunks and the terminator as syntax: one constructor per row of spec/opcode_table.json, the six opcodes a
tag selects, and the assembler notation of spec 30_encoding.md R60.
-/

namespace Sys2Proof

/-- The six opcodes a tag byte selects (R51). END is no opcode of a tag: it is recognised by position (R58). -/
inductive Opcode where
  | rgb | rgba | index | diff | luma | run
  deriving DecidableEq, Repr

/-- One instruction: a chunk with its raw fields (R52, R56), or the terminator check with the bytes it compares. -/
inductive Instr where
  /-- RGB: `FE r g b` (R85). -/
  | rgb (r g b : Byte)
  /-- RGBA: `FF r g b a` (R86). -/
  | rgba (r g b a : Byte)
  /-- INDEX: `00iiiiii`, the slot number (R90). -/
  | index (idx : Slot)
  /-- DIFF: `01rrggbb`, three raw 2-bit fields of bias 2 (R95). -/
  | diff (fr fg fb : BitVec 2)
  /-- LUMA: `10gggggg rrrrbbbb`, the raw fields of bias 32, 8 and 8 (R96). -/
  | luma (fg : BitVec 6) (frg fbg : BitVec 4)
  /-- RUN: `11nnnnnn`, the raw run field, 0 to 61 (R100, R104). -/
  | run (fn : BitVec 6)
  /-- END: the bytes the terminator check reads, eight of them, or all that remain where fewer do (R105, R106; log 8). -/
  | endMark (bytes : List Byte)
  deriving DecidableEq, Repr

/-- Where the decoder stands when it reads: the "context" column of the opcode table (R50, R58). -/
inductive Context where
  /-- A tag byte comes next (phase CHUNK). -/
  | chunk
  /-- The terminator comes next (phase TERM). -/
  | term
  deriving DecidableEq, Repr

/-- The context an instruction belongs to: every chunk to CHUNK, END to TERM. -/
def Instr.context : Instr → Context
  | .rgb _ _ _ => .chunk
  | .rgba _ _ _ _ => .chunk
  | .index _ => .chunk
  | .diff _ _ _ => .chunk
  | .luma _ _ _ => .chunk
  | .run _ => .chunk
  | .endMark _ => .term

/-- A line of the assembler notation of R60: operands as signed values after bias removal. -/
inductive Asm where
  | rgb (r g b : Int)
  | rgba (r g b a : Int)
  | index (i : Int)
  | diff (dr dg db : Int)
  | luma (dg drg dbg : Int)
  | run (n : Int)
  | endMark
  | bytes (vs : List Int)
  deriving DecidableEq, Repr

end Sys2Proof
end

