-- ==== Sys2Proof/WellFormed.lean ====
section
/-!
DEFINITION. The checks the types of Syntax.lean do not make: the run field stops at 61 (spec 30_encoding.md R52,
44_run_chunk.md R104), and the terminator check reads at most eight bytes (45_termination_and_start.md R105).
-/

namespace Sys2Proof

/-- An instruction some byte sequence stands for. Every other field is legal at every value (R57). -/
def Instr.wf : Instr → Bool
  | .rgb _ _ _ => true
  | .rgba _ _ _ _ => true
  | .index _ => true
  | .diff _ _ _ => true
  | .luma _ _ _ => true
  | .run fn => fn.toNat ≤ 61
  | .endMark bytes => bytes.length ≤ 8

end Sys2Proof
end

