-- ==== Sys2Proof/Decode.lean ====
section
/-!
DEFINITION. The decoder and the encoder (spec 30_encoding.md R50 to R58), the assembler of R60, and the reading of an opcode
table word. The decoder is total on any bytes and rejects only a chunk whose bytes are missing, by name.
-/

namespace Sys2Proof

/-- Why bytes are no chunk. There is no invalid opcode (R57): only missing bytes (R116). -/
inductive DecodeError where
  /-- No tag byte is left (R116 sub-case a). -/
  | noTag
  /-- The tag is there and fewer trailing bytes remain than its opcode needs (R116 sub-case b). -/
  | shortChunk (op : Opcode)
  deriving DecidableEq, Repr

/-- `Classify(tag)`, in the priority order of R53. -/
def classify (tag : Byte) : Opcode :=
  if tag = 0xFE then .rgb
  else if tag = 0xFF then .rgba
  else if tag.extractLsb' 6 2 = 0b00 then .index
  else if tag.extractLsb' 6 2 = 0b01 then .diff
  else if tag.extractLsb' 6 2 = 0b10 then .luma
  else .run

/-- Extra bytes consumed after the tag (R51). -/
def Opcode.trailing : Opcode → Nat
  | .rgb => 3
  | .rgba => 4
  | .index => 0
  | .diff => 0
  | .luma => 1
  | .run => 0

/-- The terminator: seven bytes 00, then one byte 01 (R58). -/
def terminator : List Byte := [0, 0, 0, 0, 0, 0, 0, 1]

/-- One chunk from the front of `bs`, with the bytes after it. Trailing bytes are data, never tags (R50). -/
def decodeChunk : List Byte → Except DecodeError (Instr × List Byte)
  | [] => .error .noTag
  | tag :: rest =>
    match classify tag with
    | .rgb =>
      match rest with
      | r :: g :: b :: rest' => .ok (.rgb r g b, rest')
      | _ => .error (.shortChunk .rgb)
    | .rgba =>
      match rest with
      | r :: g :: b :: a :: rest' => .ok (.rgba r g b a, rest')
      | _ => .error (.shortChunk .rgba)
    | .index => .ok (.index (tag.extractLsb' 0 6), rest)
    | .diff => .ok (.diff (tag.extractLsb' 4 2) (tag.extractLsb' 2 2) (tag.extractLsb' 0 2), rest)
    | .luma =>
      match rest with
      | byte1 :: rest' =>
        .ok (.luma (tag.extractLsb' 0 6) (byte1.extractLsb' 4 4) (byte1.extractLsb' 0 4), rest')
      | _ => .error (.shortChunk .luma)
    | .run => .ok (.run (tag.extractLsb' 0 6), rest)

/-- The decoder in its context: in TERM the next eight bytes (or all that remain) are END's, whatever their values
(R58, R105, R109). -/
def decode : Context → List Byte → Except DecodeError (Instr × List Byte)
  | .chunk, bs => decodeChunk bs
  | .term, bs => .ok (.endMark (bs.take 8), bs.drop 8)

/-- The bytes of an instruction, laid out as the formats of R52 say, most significant field first. -/
def encode : Instr → List Byte
  | .rgb r g b => [0xFE, r, g, b]
  | .rgba r g b a => [0xFF, r, g, b, a]
  | .index idx => [0b00#2 ++ idx]
  | .diff fr fg fb => [0b01#2 ++ fr ++ fg ++ fb]
  | .luma fg frg fbg => [0b10#2 ++ fg, frg ++ fbg]
  | .run fn => [0b11#2 ++ fn]
  | .endMark bytes => bytes

/-- How many bytes an instruction takes in the stream (R51; END: the bytes it read, R105). -/
def Instr.length : Instr → Nat
  | .rgb _ _ _ => 4
  | .rgba _ _ _ _ => 5
  | .index _ => 1
  | .diff _ _ _ => 1
  | .luma _ _ _ => 2
  | .run _ => 1
  | .endMark bytes => bytes.length

/-! ### The assembler notation of R60 -/

/-- `v` as the `w`-bit field of bias `bias`, refused outside the field's range. -/
def asmField (w : Nat) (bias v : Int) : Option (BitVec w) :=
  if 0 ≤ v + bias ∧ v + bias < 2 ^ w then some (BitVec.ofInt w (v + bias)) else none

/-- The bytes a line of assembler stands for; none where an operand is outside its range (R60). -/
def assemble : Asm → Option (List Byte)
  | .rgb r g b => do
    return encode (.rgb (← asmField 8 0 r) (← asmField 8 0 g) (← asmField 8 0 b))
  | .rgba r g b a => do
    return encode (.rgba (← asmField 8 0 r) (← asmField 8 0 g) (← asmField 8 0 b) (← asmField 8 0 a))
  | .index i => do return encode (.index (← asmField 6 0 i))
  | .diff dr dg db => do
    return encode (.diff (← asmField 2 2 dr) (← asmField 2 2 dg) (← asmField 2 2 db))
  | .luma dg drg dbg => do
    return encode (.luma (← asmField 6 32 dg) (← asmField 4 8 drg) (← asmField 4 8 dbg))
  | .run n => if n ≤ 62 then do return encode (.run (← asmField 6 (-1) n)) else none
  | .endMark => some terminator
  | .bytes vs => vs.mapM (asmField 8 0)

/-! ### Reading a word of the opcode table -/

/-- The context of a table word: only the END row has eight bytes (log 7). -/
def tableContext (nbits : Nat) : Context := if nbits = 64 then .term else .chunk

/-- The eight bytes of a table word, first byte least significant, zero above `nbits`; eight bytes is the longest
instruction. -/
def tableBytes (nbits w : Nat) : List Byte :=
  [0, 1, 2, 3, 4, 5, 6, 7].map fun k => BitVec.ofNat 8 (w % 2 ^ nbits / 2 ^ (8 * k))

/-- What the decoder reads from an instruction whose bits are `w`. -/
def decodeTableWord (nbits w : Nat) : Option Instr :=
  match decode (tableContext nbits) (tableBytes nbits w) with
  | .ok (i, _) => some i
  | .error _ => none

end Sys2Proof
end

