-- ==== Sys2Proof/Machine/State.lean ====
section
/-!
DEFINITION. The state of the chunk decoder as plain data (spec 10_state.md R10 to R27), the reasons a step can stop, and the
state after hardware reset (R26, R112).
-/

namespace Sys2Proof.Machine

open Sys2Proof

/-- `phase`: what the decoder will do next (R17). The codes are in Flags.lean. -/
inductive Phase where
  | idle | chunk | term | done | error
  deriving DecidableEq, Repr

/-- `err`: the error kind (R18, R115). The codes are in Flags.lean. -/
inductive ErrorKind where
  | none | unexpectedInputEnd | badEnding
  deriving DecidableEq, Repr

/-- What the host presents on its command ports: `start` with `size_in` and the fresh byte source it attaches (R110), or
the hardware reset (R112). -/
inductive Command where
  | start (sizeIn : Count) (src : List Byte)
  | reset
  deriving DecidableEq, Repr

/-- The byte-granular micro-state held between handshakes (R22). -/
structure Micro where
  /-- `tag_latch`: the tag of the chunk in progress, a RUN that is still committing among them; 0 between chunks. -/
  tagLatch : Byte
  /-- `opnd[0..3]`: trailing bytes received so far. -/
  opnd : Vector Byte 4
  /-- `have`: how many trailing bytes have arrived. -/
  haveCnt : BitVec 3
  /-- `run_left`: pixels of the current RUN still to commit. -/
  runLeft : BitVec 6
  /-- `term_cnt`: terminator bytes consumed so far. -/
  termCnt : BitVec 4
  /-- `term_ok`: every terminator byte so far matched. -/
  termOk : Bool
  deriving DecidableEq, Repr

/-- The micro-state after reset, after start and between chunks: all zero, `term_ok` one (R22, R26, C8). -/
def Micro.rest : Micro :=
  { tagLatch := 0, opnd := Vector.replicate 4 0, haveCnt := 0, runLeft := 0, termCnt := 0, termOk := true }

/-- Everything the spec gives the machine, and the two model fields `src` and `cmd` that stand for its ports. -/
structure State where
  /-- `last_pixel` (R11). -/
  last : Pixel
  /-- `seen_pixels`, the 64-slot direct-mapped cache (R12). -/
  seen : Vector Pixel 64
  /-- The output sequence, in raster order (R13). -/
  pixels : List Pixel
  /-- The required pixel count (R14). -/
  size : Count
  /-- Pixels appended since start (R15). -/
  count : Count
  /-- The stream cursor: bytes consumed since start (R16). -/
  pos : Nat
  /-- R17. -/
  phase : Phase
  /-- R18. -/
  err : ErrorKind
  /-- R22. -/
  micro : Micro
  /-- The pixel presented on the output port and not yet transferred (R26 row "output stream", R38). -/
  out : Option Pixel
  /-- The byte source attached to the input port, `src[0]` first (R30; log 1). -/
  src : List Byte
  /-- The command the host is presenting (R20, R110, R112; log 2). -/
  cmd : Option Command
  deriving DecidableEq, Repr

/-- Why the machine stops with a fault. The decoder's two errors are no faults: they are next states in phase ERROR (R121). -/
inductive Fault where
  /-- Raised by every meaning when it is given to `exec` outside the phase it belongs to: a chunk outside CHUNK, END
  outside TERM (R70: `Step` is defined only there; R109). `step` never raises it. Safe: the hardware has no such event (log 4). -/
  | outOfPhase
  deriving DecidableEq, Repr

/-- Why an instruction has no meaning. -/
inductive Refusal where
  /-- Raised by an arm of `exec` for an instruction that has no meaning yet; no arm does. Safe. -/
  | notModelled (mnemonic : String)
  deriving DecidableEq, Repr

/-- The machine right after hardware reset: the column "after hardware reset" of R26; no source attached and no command
presented (log 1, log 2). -/
def State.reset : State :=
  { last := Config.seed
    seen := Vector.replicate 64 Config.zero
    pixels := []
    size := 0
    count := 0
    pos := 0
    phase := .idle
    err := .none
    micro := Micro.rest
    out := none
    src := []
    cmd := none }

end Sys2Proof.Machine
end

