-- ==== Sys2Proof/Machine/Operands.lean ====
section
/-!
DEFINITION. Every operand form: the biased fields (spec 30_encoding.md R56), the wrapping channel arithmetic
(00_scope.md R7, 40_main_loop_and_commit.md R75, R79) and the cache index function (R77).
-/

namespace Sys2Proof.Machine

open Sys2Proof

/-- `add8(c, d) = (c + d) mod 256` (R7, R75). -/
def add8 (c : Byte) (d : Int) : Byte := BitVec.ofInt 8 (c.toNat + d)

/-- A DIFF field's delta: bias 2, -2 to +1 (R56, R95). -/
def diffDelta (f : BitVec 2) : Int := f.toNat - 2

/-- LUMA's green delta: bias 32, -32 to +31 (R56, R96). -/
def lumaGreen (fg : BitVec 6) : Int := fg.toNat - 32

/-- LUMA's red or blue delta: bias 8, plus the green delta, -40 to +38 (R56, R96). -/
def lumaOther (f : BitVec 4) (dg : Int) : Int := f.toNat - 8 + dg

/-- RUN's length: field + 1, 1 to 62 (R56, R100). -/
def runLength (fn : BitVec 6) : Nat := fn.toNat + 1

/-- Red, green and blue each moved by its own delta with its own wrap, alpha copied (R79, R95, R96). -/
def addDeltas (p : Pixel) (dr dg db : Int) : Pixel := ⟨add8 p.r dr, add8 p.g dg, add8 p.b db, p.a⟩

/-- `Hash(p)`: the one slot a pixel is written to (R77). -/
def pixelHash (p : Pixel) : Slot := BitVec.ofNat 6 (p.r.toNat * 3 + p.g.toNat * 5 + p.b.toNat * 7 + p.a.toNat * 11)

end Sys2Proof.Machine
end

