-- ==== Sys2Proof/Machine/Flags.lean ====
section
/-!
DEFINITION. The block has no flags or condition codes (spec 10_state.md R19). This file holds what the host sees in their
place: the codes of `phase` and `err`, the status outputs (R17 to R20) and the packing of the output word (20_memory.md R38).
-/

namespace Sys2Proof.Machine

open Sys2Proof

/-- The 3-bit phase codes of R17. -/
def Phase.code : Phase → BitVec 3
  | .idle => 0
  | .chunk => 1
  | .term => 2
  | .done => 3
  | .error => 4

/-- The 2-bit error codes of R18 and R115. -/
def ErrorKind.code : ErrorKind → BitVec 2
  | .none => 0
  | .unexpectedInputEnd => 1
  | .badEnding => 2

/-- `busy = (phase in {CHUNK, TERM})` (R19). -/
def State.busy (s : State) : Bool := s.phase = .chunk || s.phase = .term

/-- The status ports the host reads (R20). -/
structure Status where
  size : Count
  count : Count
  phase : BitVec 3
  err : BitVec 2
  busy : Bool
  done : Bool
  error : Bool
  deriving DecidableEq, Repr

/-- What the host reads of a state: `last` and `seen` have no port (R19, R20). -/
def State.status (s : State) : Status :=
  { size := s.size
    count := s.count
    phase := s.phase.code
    err := s.err.code
    busy := s.busy
    done := s.phase = .done
    error := s.phase = .error }

/-- `out_pixel`: r in 31:24, g in 23:16, b in 15:8, a in 7:0 (R38). -/
def pack (p : Pixel) : BitVec 32 := p.r ++ p.g ++ p.b ++ p.a

end Sys2Proof.Machine
end

