-- ==== Sys2Proof/Machine/Ops.lean ====
section
/-!
DEFINITION. The named operations over the source, the cache and the output, taking an error (`raise`), the main loop's test,
and the host's START and RESET (spec 20_memory.md R31, R32, R37, 40_main_loop_and_commit.md R70, R76,
45_termination_and_start.md R110 to R112, 60_exceptions.md R121).
-/

namespace Sys2Proof.Machine

open Sys2Proof

/-! ### The byte source -/

/-- The bytes the source still holds: `src[pos..L-1]`. -/
def State.remaining (s : State) : List Byte := s.src.drop s.pos

/-- `NextByte` and `TryNextByte` share this read (R31, R32): the next byte and `pos + 1`, or none at the end of the source.
They differ in what the caller does with none: phase CHUNK raises UnexpectedInputEnd, phase TERM BadEnding. -/
def State.nextByte (s : State) : Option (Byte × State) :=
  match s.src[s.pos]? with
  | some b => some (b, { s with pos := s.pos + 1 })
  | none => none

/-- `n` bytes consumed. -/
def State.advance (s : State) (n : Nat) : State := { s with pos := s.pos + n }

/-- Every byte that remained consumed: `pos = L` (R31, R72). -/
def State.exhaust (s : State) : State := { s with pos := s.src.length }

/-! ### The cache and the output -/

/-- Cache read `seen[i]` (R37). -/
def State.seenAt (s : State) (i : Slot) : Pixel := s.seen[i.toNat]'(by have := i.isLt; omega)

/-- `Commit(p)`: append, count, previous pixel and cache write in one transition (R76). -/
def State.commit (s : State) (p : Pixel) : State :=
  { s with
    pixels := s.pixels ++ [p]
    count := s.count + 1
    last := p
    seen := s.seen.set (pixelHash p).toNat p (by have := (pixelHash p).isLt; omega) }

/-- `Commit(last)` repeated `m` times (R100, R101): `last` is unchanged by each. -/
def State.commitLast (s : State) : Nat → State
  | 0 => s
  | m + 1 => (s.commit s.last).commitLast m

/-- The pixels still required, `size - count` (R102). -/
def State.room (s : State) : Nat := s.size.toNat - s.count.toNat

/-! ### Control -/

/-- `raise E`: `err` and `phase`, nothing else (R121). There is no return from it (R122). -/
def State.raise (s : State) (e : ErrorKind) : State := { s with err := e, phase := .error }

/-- The main loop's test, made after every chunk: `count = size` leads from CHUNK to TERM (R70). -/
def State.loopTest (s : State) : State :=
  if s.phase = .chunk ∧ s.count = s.size then { s with phase := .term } else s

/-- The loop test after an instruction that answered a next state. -/
def settle (o : Host.Outcome State Fault Refusal) : Host.Outcome State Fault Refusal :=
  match o with
  | .next t => .next t.loopTest
  | .fault f => .fault f
  | .refused r => .refused r

/-- An instruction's effect `t` in the phase `ph` it belongs to (opcode_table.json, "context"); elsewhere it has none
(R70, R109; log 4). -/
def inPhase (ph : Phase) (s t : State) : Host.Outcome State Fault Refusal :=
  if s.phase = ph then .next t else .fault .outOfPhase

/-! ### The host's commands -/

/-- `Start(size_in)` with a fresh byte source (R110). -/
def State.start (sizeIn : Count) (src : List Byte) : State :=
  { last := Config.seed
    seen := Vector.replicate 64 Config.zero
    pixels := []
    size := sizeIn
    count := 0
    pos := 0
    phase := if sizeIn = 0 then .term else .chunk
    err := .none
    micro := Micro.rest
    out := none
    src := src
    cmd := none }

/-- The block takes the command presented: START in IDLE, DONE and ERROR (R110), ignored while busy (R111); RESET in every
phase (R112). The command is then no longer presented. -/
def State.accept (s : State) : Command → State
  | .start sizeIn src => if s.busy then { s with cmd := none } else State.start sizeIn src
  | .reset => State.reset

end Sys2Proof.Machine
end

