-- ==== Sys2Proof/Machine/Delta.lean ====
section
/-! DEFINITION. The delta chunks DIFF and LUMA (spec 43_diff_chunks.md R95 to R97). -/

namespace Sys2Proof.Machine

open Sys2Proof

/-- DIFF: each colour channel moved by its own field - 2 (R95). -/
def execDiff (fr fg fb : BitVec 2) (s : State) : Host.Outcome State Fault Refusal :=
  inPhase .chunk s (s.commit (addDeltas s.last (diffDelta fr) (diffDelta fg) (diffDelta fb)))

/-- LUMA: the green delta carried directly, red and blue relative to it (R96). -/
def execLuma (fg : BitVec 6) (frg fbg : BitVec 4) (s : State) : Host.Outcome State Fault Refusal :=
  inPhase .chunk s
    (s.commit (addDeltas s.last (lumaOther frg (lumaGreen fg)) (lumaGreen fg) (lumaOther fbg (lumaGreen fg))))

end Sys2Proof.Machine
end

