-- ==== Sys2Proof/Machine/Index.lean ====
section
/-! DEFINITION. The cache index chunk INDEX (spec 42_index_chunk.md R90 to R93). -/

namespace Sys2Proof.Machine

open Sys2Proof

/-- INDEX: new pixel = cache slot `idx` verbatim; the commit writes slot `pixelHash p`, not slot `idx` (R90, R92). -/
def execIndex (idx : Slot) (s : State) : Host.Outcome State Fault Refusal :=
  inPhase .chunk s (s.commit (s.seenAt idx))

end Sys2Proof.Machine
end

