-- ==== Sys2Proof/Machine/Literal.lean ====
section
/-! DEFINITION. The literal chunks RGB and RGBA (spec 41_literal_chunks.md R85, R86). -/

namespace Sys2Proof.Machine

open Sys2Proof

/-- RGB: new pixel (r, g, b, alpha of the last pixel) (R85). -/
def execRgb (r g b : Byte) (s : State) : Host.Outcome State Fault Refusal :=
  inPhase .chunk s (s.commit ⟨r, g, b, s.last.a⟩)

/-- RGBA: new pixel (r, g, b, a) literal (R86). -/
def execRgba (r g b a : Byte) (s : State) : Host.Outcome State Fault Refusal :=
  inPhase .chunk s (s.commit ⟨r, g, b, a⟩)

end Sys2Proof.Machine
end

