-- ==== Sys2Proof/Machine/Run.lean ====
section
/-! DEFINITION. The run chunk RUN (spec 44_run_chunk.md R100 to R104). -/

namespace Sys2Proof.Machine

open Sys2Proof

/-- RUN: the last pixel committed `min(n, size - count)` times (R100, R102). -/
def execRun (fn : BitVec 6) (s : State) : Host.Outcome State Fault Refusal :=
  inPhase .chunk s (s.commitLast (min (runLength fn) s.room))

end Sys2Proof.Machine
end

