-- ==== Sys2Proof/Machine/Terminator.lean ====
section
/-! DEFINITION. The terminator check END (spec 45_termination_and_start.md R105 to R109). -/

namespace Sys2Proof.Machine

open Sys2Proof

/-- END: the bytes read are the terminator, or the decode fails with BadEnding, for wrong bytes and for too few alike
(R105, R106, R107). -/
def execEnd (bytes : List Byte) (s : State) : Host.Outcome State Fault Refusal :=
  inPhase .term s (if bytes = terminator then { s with phase := .done } else s.raise .badEnding)

end Sys2Proof.Machine
end

