-- ==== Sys2Proof/Machine/Fetch.lean ====
section
/-!
DEFINITION. Fetching: what the step finds at the stream cursor (spec 40_main_loop_and_commit.md R70 to R72,
20_memory.md R33), and placing an instruction there.
-/

namespace Sys2Proof.Machine

open Sys2Proof

/-- What a fetch answers. -/
inductive Fetched where
  /-- Nothing is to be done: phase IDLE, DONE or ERROR. -/
  | idle
  /-- The source ends before the chunk does (R116). -/
  | exhausted
  /-- An instruction, and the state with its bytes consumed. -/
  | instr (i : Instr) (s : State)
  deriving DecidableEq, Repr

/-- The instruction at the cursor, its bytes consumed; nothing beyond them is looked at (R33). -/
def State.fetchIn (s : State) (c : Context) : Fetched :=
  match decode c s.remaining with
  | .ok (i, _) => .instr i (s.advance i.length)
  | .error _ => .exhausted

/-- The fetch in each phase: a chunk in CHUNK, the terminator's bytes in TERM, nothing elsewhere (R33 d, R70). -/
def State.fetch (s : State) : Fetched :=
  match s.phase with
  | .chunk => s.fetchIn .chunk
  | .term => s.fetchIn .term
  | .idle => .idle
  | .done => .idle
  | .error => .idle

/-- `s` about to fetch the bytes `bs` in the context `c`: they stand at the cursor, no command is presented, no error is
held, and phase and `size` are those in which that context is read (log 7). -/
def State.placed (s : State) (c : Context) (bs : List Byte) : State :=
  { s with
    src := s.src.take s.pos ++ bs
    pos := (s.src.take s.pos).length
    cmd := none
    err := .none
    phase := match c with | .chunk => .chunk | .term => .term
    size := match c with
      | .chunk => if s.count < s.size then s.size else BitVec.allOnes 64
      | .term => s.count }

end Sys2Proof.Machine
end

