-- ==== Sys2Proof/Machine/Step.lean ====
section
/-!
DEFINITION. One step (spec 40_main_loop_and_commit.md R70, decision D1): the host's command if one is presented, else one
whole chunk, else the terminator check, else nothing.
-/

namespace Sys2Proof.Machine

open Sys2Proof

/-- `Step()` of R70, with the host's commands (R110 to R112). A decode that is over, or not begun, holds its state until the
next command (R27, R73, R125; log 3). -/
def step (s : State) : Host.Outcome State Fault Refusal :=
  match s.cmd with
  | some c => .next (s.accept c)
  | none =>
    match s.fetch with
    | .idle => .next s
    | .exhausted => .next (s.exhaust.raise .unexpectedInputEnd)
    | .instr i s' => settle (exec i s')

/-- `s` with a word of the opcode table placed where the next step fetches (log 7). -/
def State.withFetchWord (s : State) (nbits w : Nat) : State :=
  s.placed (tableContext nbits) (tableBytes nbits w)

end Sys2Proof.Machine
end

