-- ==== Sys2Proof/Machine/Ports.lean ====
section
/-!
DEFINITION. The byte-granular machine between handshakes (spec 10_state.md R22, 20_memory.md R34 and R38,
44_run_chunk.md R100 to R102, 70_reset_and_hazards.md R143, R146): one byte per input handshake, one pixel per output
handshake, over the same State. The chunk-granular `step` stays the normative one (R22); this file says how the micro-state
gets there.
-/

namespace Sys2Proof.Machine

open Sys2Proof

/-! ### The signals -/

/-- `in_valid` may rise: the source holds another byte (R34). -/
def State.inValid (s : State) : Bool := decide (s.pos < s.src.length)

/-- `in_eos`: the source is exhausted (R34). It never holds together with `in_valid`. -/
def State.inEos (s : State) : Bool := !s.inValid

/-- `in_data`: the byte offered, if one is (R34). -/
def State.inData (s : State) : Option Byte := s.src[s.pos]?

/-- `in_ready`: only in CHUNK and TERM and not while a RUN is still committing (R34); low too while a pixel waits on the
output (log 5). -/
def State.inReady (s : State) : Bool := s.busy && s.micro.runLeft == 0 && s.out.isNone

/-- `out_valid` (R38). -/
def State.outValid (s : State) : Bool := s.out.isSome

/-- `out_pixel`, where `out_valid` holds (R38). -/
def State.outPixel (s : State) : Option (BitVec 32) := s.out.map pack

/-! ### Commits, one at a time -/

/-- The pixel just committed presented on the output, then the loop test (R38, R70). -/
def State.present (s : State) : State := { s with out := some s.last }.loopTest

/-- The next repetition of a RUN: one commit, one less to go. After the last one, or at `count = size`, where the surplus is
dropped (R102, R143 e), the chunk is complete and the micro-state at rest; until then its tag stays latched (R22). Given
`count` at or above `size`, which the invariant excludes, it commits all the same, unlike `execRun` (DESIGN CHOICE, log 10). -/
def State.runOne (s : State) : State :=
  let t := (s.commit s.last).present
  { t with
    micro := if s.micro.runLeft = 1 ∨ t.count = t.size then Micro.rest
      else { s.micro with runLeft := s.micro.runLeft - 1 } }

/-- A chunk of one pixel, all its bytes consumed: its meaning, and the pixel presented. -/
def State.completeOne (s : State) (i : Instr) : State :=
  match exec i { s with micro := Micro.rest } with
  | .next t => t.present
  | .fault _ => s
  | .refused _ => s

/-- All bytes of the chunk with this tag have arrived and are consumed: a RUN latches its tag, which stays the tag of the
chunk in progress (R22), and begins its repetitions; any other chunk commits its pixel. -/
def State.complete (s : State) (tag : Byte) (i : Instr) : State :=
  match i with
  | .rgb _ _ _ => s.completeOne i
  | .rgba _ _ _ _ => s.completeOne i
  | .index _ => s.completeOne i
  | .diff _ _ _ => s.completeOne i
  | .luma _ _ _ => s.completeOne i
  | .run fn => { s with micro := { Micro.rest with tagLatch := tag, runLeft := BitVec.ofNat 6 (runLength fn) } }.runOne
  | .endMark _ => s

/-! ### The handshakes -/

/-- A byte arrives in CHUNK: a tag between chunks, else the next trailing byte; a trailing byte is never classified
(R22, R143 g). `tag_latch = 0` means that no chunk is in progress (DESIGN CHOICE, log 5): the one tag that is 0, INDEX of
slot 0, completes as it arrives. -/
def State.chunkByte (s : State) (b : Byte) : State :=
  let m := s.micro
  let tag := if m.tagLatch = 0 then b else m.tagLatch
  let bytes := if m.tagLatch = 0 then [b] else m.tagLatch :: (m.opnd.toList.take m.haveCnt.toNat ++ [b])
  match decodeChunk bytes with
  | .ok (i, _) => s.complete tag i
  | .error _ =>
    if m.tagLatch = 0 then { s with micro.tagLatch := b }
    else
      { s with
        micro.opnd := m.opnd.setIfInBounds m.haveCnt.toNat b
        micro.haveCnt := m.haveCnt + 1 }

/-- A byte of the terminator counted, and compared with the terminator at its place (R22, R105). -/
def State.compareByte (s : State) (b : Byte) : State :=
  { s with
    micro.termOk := s.micro.termOk && terminator[s.micro.termCnt.toNat]? == some b
    micro.termCnt := s.micro.termCnt + 1 }

/-- A byte arrives in TERM; the verdict falls after the eighth (R105). The micro-state then keeps what it holds, `term_cnt` at
its 8: the terminator is no chunk (R58), and R22 restores the micro-state only at reset, at start and where a chunk completes;
that nothing clears it before the next command is the model's choice (DESIGN CHOICE, log 5). -/
def State.termByte (s : State) (b : Byte) : State :=
  let t := s.compareByte b
  if s.micro.termCnt = 7 then if t.micro.termOk then { t with phase := .done } else t.raise .badEnding else t

/-- The input handshake: the source presents its next byte, or its end, and the decoder takes it if it is ready
(R31, R32, R34). -/
def State.inputEvent (s : State) : State :=
  if s.inReady then
    match s.nextByte with
    | some (b, t) => if s.phase = .chunk then t.chunkByte b else t.termByte b
    | none => s.raise (if s.phase = .chunk then .unexpectedInputEnd else .badEnding)
  else s

/-- The output handshake: the sink takes the pixel presented; a RUN with pixels left commits its next one (R38). -/
def State.outputEvent (s : State) : State :=
  if s.out.isSome then
    if s.micro.runLeft = 0 then { s with out := none } else { s with out := none }.runOne
  else s

/-- What the surroundings can do to the block. -/
inductive PortEvent where
  /-- The source offers its next byte, or signals its end (R34). -/
  | input
  /-- The sink asserts `out_ready` (R38). -/
  | output
  /-- The host gives a command (R110 to R112). -/
  | command (c : Command)
  deriving DecidableEq, Repr

/-- The block's answer to one event. -/
def State.event (s : State) : PortEvent → State
  | .input => s.inputEvent
  | .output => s.outputEvent
  | .command c => s.accept c

/-- The block's answer to a list of events, first event first. -/
def State.events (s : State) (es : List PortEvent) : State := es.foldl State.event s

/-- The one handshake that can happen: the output's while a pixel waits there, else the input's. -/
def State.handshake (s : State) : State := if s.out.isSome then s.outputEvent else s.inputEvent

end Sys2Proof.Machine
end

