-- ==== Sys2Proof/Safety.lean ====
section
/-!
DEFINITION. What counts as a safe run, in the terms the statements use: the invariants of spec 10_state.md R24, the result of
a decode (R13, R121), and the words the statements say an instruction's effect and frame in.
-/

namespace Sys2Proof.Machine

open Sys2Proof

/-! ### The invariants of R24, one name each -/

/-- R24 (a): `count = len(pixels)`. -/
abbrev State.CountIsLength (s : State) : Prop := s.count.toNat = s.pixels.length

/-- R24 (b): `count <= size`. -/
abbrev State.CountInBounds (s : State) : Prop := s.count.toNat ≤ s.size.toNat

/-- R24 (c): CHUNK has pixels left to produce, TERM and DONE have none. -/
abbrev State.PhaseMatchesCount (s : State) : Prop :=
  (s.phase = .chunk → s.count.toNat < s.size.toNat) ∧ (s.phase = .term ∨ s.phase = .done → s.count = s.size)

/-- R24 (d): `last` is the final pixel, or the seed while there is none. -/
abbrev State.LastIsFinal (s : State) : Prop := s.last = s.pixels.getLast?.getD Config.seed

/-- R24 (e): every slot holds ZERO or a pixel that hashes to it. -/
abbrev State.CacheWf (s : State) : Prop := ∀ i : Slot, s.seenAt i = Config.zero ∨ pixelHash (s.seenAt i) = i

/-- R24 (f): the most recent pixel is in the cache. -/
abbrev State.LastIsCached (s : State) : Prop := s.pixels ≠ [] → s.seenAt (pixelHash s.last) = s.last

/-- R18: `err` is none in every phase but ERROR, and set in ERROR. -/
abbrev State.ErrMatchesPhase (s : State) : Prop := s.err = .none ↔ s.phase ≠ .error

/-- R16: `pos` is bounded by the source's length. -/
abbrev State.CursorInSource (s : State) : Prop := s.pos ≤ s.src.length

/-- R22: between chunks the micro-state is at its reset values; in the chunk-granular view nothing waits on the output. -/
abbrev State.AtRest (s : State) : Prop := s.micro = Micro.rest ∧ s.out = none

/-- R17: in IDLE no decode has been started: everything is as reset left it. -/
abbrev State.IdleIsFresh (s : State) : Prop := s.phase = .idle → { s with cmd := none } = State.reset

/-- What holds in every state, at every granularity (R24, R18, R16, R17). -/
abbrev State.PixelInv (s : State) : Prop :=
  s.CountIsLength ∧ s.CountInBounds ∧ s.PhaseMatchesCount ∧ s.LastIsFinal ∧ s.CacheWf ∧ s.LastIsCached ∧
    s.ErrMatchesPhase ∧ s.CursorInSource ∧ s.IdleIsFresh

/-- The invariant of the chunk-granular machine. -/
abbrev State.Inv (s : State) : Prop := s.PixelInv ∧ s.AtRest

/-- The invariant of the byte-granular machine: a RUN has repetitions left only in CHUNK (R22), the pixel on the output is
the most recent one (R38), a pixel waits there only in CHUNK or TERM, and ERROR, DONE and IDLE present nothing (R121). -/
abbrev State.PortInv (s : State) : Prop :=
  s.PixelInv ∧ (s.micro.runLeft ≠ 0 → s.phase = .chunk ∧ s.out.isSome) ∧
    (s.out.isSome → s.busy ∧ s.pixels.getLast? = s.out)

/-- The cache, as a function of what was output: each slot holds the last pixel that hashes to it, or ZERO (R12, R93). -/
def State.CacheIsHistory (s : State) : Prop :=
  ∀ i : Slot, s.seenAt i = (s.pixels.filter fun p => pixelHash p = i).getLast?.getD Config.zero

/-! ### What the micro-state holds between handshakes (R22) -/

/-- The bytes consumed so far, `src[0..pos-1]`. -/
def State.consumed (s : State) : List Byte := s.src.take s.pos

/-- `tag_latch`, `opnd` and `have`: with a chunk in progress, the last bytes consumed are its tag and the trailing bytes
received, in arrival order; with none, nothing is held. -/
abbrev State.LatchHoldsTheChunk (s : State) : Prop :=
  (s.micro.tagLatch = 0 → s.micro.haveCnt = 0) ∧
    (s.micro.tagLatch ≠ 0 → (s.phase = .chunk ∨ s.phase = .error) ∧
      s.micro.tagLatch :: s.micro.opnd.toList.take s.micro.haveCnt.toNat <:+ s.consumed)

/-- The chunk in progress is a RUN with pixels still to commit, in CHUNK, or a chunk whose trailing bytes are awaited. -/
abbrev State.ChunkIsUnfinished (s : State) : Prop :=
  (s.micro.runLeft ≠ 0 → s.phase = .chunk ∧ classify s.micro.tagLatch = .run ∧ s.micro.haveCnt = 0) ∧
    (s.micro.tagLatch ≠ 0 → s.micro.runLeft = 0 → s.micro.haveCnt.toNat < (classify s.micro.tagLatch).trailing)

/-- `term_cnt` and `term_ok`: the last `term_cnt` bytes consumed, and whether they are the terminator's first ones. They
count only from TERM on: fewer than eight there, all eight and right in DONE. -/
def State.TermCountsTheTerminator (s : State) : Prop :=
  (∃ bs, bs <:+ s.consumed ∧ bs.length = s.micro.termCnt.toNat ∧
      (s.micro.termOk = true ↔ bs = terminator.take s.micro.termCnt.toNat)) ∧
    s.micro.termCnt.toNat ≤ 8 ∧ (s.phase = .chunk ∨ s.phase = .idle → s.micro.termCnt = 0) ∧
    (s.phase = .term → s.micro.termCnt.toNat < 8) ∧ (s.phase = .done → s.micro.termCnt = 8 ∧ s.micro.termOk = true)

/-- R22's table, as an invariant of the byte-granular machine. -/
def State.MicroInv (s : State) : Prop := s.LatchHoldsTheChunk ∧ s.ChunkIsUnfinished ∧ s.TermCountsTheTerminator

/-! ### The result of a decode -/

/-- The result once the decode is over: the pixels in DONE, the error kind alone in ERROR (R13, R121). -/
def State.result (s : State) : Option (Except ErrorKind (List Pixel)) :=
  match s.phase with
  | .done => some (.ok s.pixels)
  | .error => some (.error s.err)
  | .idle => none
  | .chunk => none
  | .term => none

/-- A RUN whose length exceeds the pixels still required: outside what R9 calls a valid stream (R102). -/
def State.overshotBy (s : State) (i : Instr) : Prop :=
  match i with
  | .rgb _ _ _ => False
  | .rgba _ _ _ _ => False
  | .index _ => False
  | .diff _ _ _ => False
  | .luma _ _ _ => False
  | .run fn => s.room < runLength fn
  | .endMark _ => False

/-! ### Effects and frames -/

/-- `t` holds `m` more copies of `p` than `s`: output, count, previous pixel, and the one cache slot `Hash(p)` (R76). -/
def Produced (s : State) (p : Pixel) (m : Nat) (t : State) : Prop :=
  t.pixels = s.pixels ++ List.replicate m p ∧ t.count = s.count + BitVec.ofNat 64 m ∧ t.last = p ∧
    ∀ i : Slot, t.seenAt i = if i = pixelHash p ∧ 0 < m then p else s.seenAt i

/-- What no chunk and no terminator check writes: `size`, the source, the command, the micro-state, the output port. -/
def SamePorts (s t : State) : Prop :=
  t.size = s.size ∧ t.src = s.src ∧ t.cmd = s.cmd ∧ t.micro = s.micro ∧ t.out = s.out

/-- What only a commit or START and RESET write: output, count, previous pixel, cache. -/
def SamePixels (s t : State) : Prop :=
  t.pixels = s.pixels ∧ t.count = s.count ∧ t.last = s.last ∧ t.seen = s.seen

/-- The decode failed with `e`, the whole source consumed, nothing committed (R72, R121). -/
def FailedAtEnd (s : State) (e : ErrorKind) (t : State) : Prop :=
  t.phase = .error ∧ t.err = e ∧ t.pos = s.src.length ∧ SamePixels s t ∧ SamePorts s t

/-- Chunk execution: no command presented, phase CHUNK. -/
abbrev State.Decoding (s : State) : Prop := s.phase = .chunk ∧ s.cmd = none

/-- The chunk step's end: `n` bytes consumed, no error, and TERM exactly when the count is reached (R70). -/
def ChunkEnded (s : State) (n : Nat) (t : State) : Prop :=
  t.pos = s.pos + n ∧ t.err = s.err ∧ t.phase = if t.count = t.size then .term else .chunk

/-- Given to `exec`, `i` completes: `m` copies of `p` produced, nothing else written. -/
def ExecProduces (i : Instr) (s : State) (p : Pixel) (m : Nat) : Prop :=
  ∃ t, exec i s = .next t ∧ Produced s p m t ∧ SamePorts s t ∧ t.pos = s.pos ∧ t.phase = s.phase ∧ t.err = s.err

/-- The next step is a chunk of `n` bytes that produces `m` copies of `p` and writes nothing else. -/
def StepProduces (s : State) (n : Nat) (p : Pixel) (m : Nat) : Prop :=
  ∃ t, step s = .next t ∧ Produced s p m t ∧ SamePorts s t ∧ ChunkEnded s n t

/-- The next step fails with UnexpectedInputEnd, the whole source consumed, nothing committed. -/
def StepFails (s : State) : Prop := ∃ t, step s = .next t ∧ FailedAtEnd s .unexpectedInputEnd t

/-! ### Sequences of steps and of chunks -/

/-- `k` steps, stopping at the first fault or refusal. -/
def runSteps : Nat → State → Host.Outcome State Fault Refusal
  | 0, s => .next s
  | k + 1, s =>
    match step s with
    | .next t => runSteps k t
    | .fault f => .fault f
    | .refused r => .refused r

/-- Instructions executed one after another, with no fetch between them. -/
def execAll : List Instr → State → Host.Outcome State Fault Refusal
  | [], s => .next s
  | i :: is, s =>
    match exec i s with
    | .next t => execAll is t
    | .fault f => .fault f
    | .refused r => .refused r

/-- The chunks `is` lead from `s` to `t`, pixels being still required before each of them (R70). -/
def LeadsTo : List Instr → State → State → Prop
  | [], s, t => t = s
  | i :: is, s, t => s.count.toNat < s.size.toNat ∧ ∃ u, exec i s = .next u ∧ LeadsTo is u t

end Sys2Proof.Machine
end

