-- ==== Sys2Proof/Certificates/Slice0/Obligations.lean ====
section
/-!
DEFINITION. The statements for the provers: one `def Obligations.<Name> : Prop` each, in the order of OBLIGATIONS.json.
Each docstring names the rules of spec/ it formalises and, where one is used, the spec's own decision or the log entry.
-/

open Sys2Proof Sys2Proof.Machine

/-! ### Encoding -/

/-- R50 to R52, R55, R58: decoding the encoding of a well-formed instruction, whatever bytes follow, gives it back with those
bytes. An END of fewer than eight bytes is read only where the source ends (R105, R106; representation of END: log 8). -/
def Obligations.DecodeOfEncodeGivesInstruction : Prop :=
  ∀ (i : Instr) (rest : List Byte), i.wf = true →
    (∀ bytes, i = .endMark bytes → bytes.length = 8 ∨ rest = []) →
      decode i.context (encode i ++ rest) = .ok (i, rest)

/-- R52, R54, R57: whatever the decoder reads is well formed, belongs to the context, and its encoding is exactly the bytes
read, so no bit of a chunk is dropped. -/
def Obligations.DecodedBytesAreTheEncoding : Prop :=
  ∀ (c : Context) (bs rest : List Byte) (i : Instr), decode c bs = .ok (i, rest) →
    i.wf = true ∧ i.context = c ∧ bs = encode i ++ rest ∧ bs.length = i.length + rest.length

/-- R54: the opcode map over all 256 tag values, by range and by match and mask. -/
def Obligations.EveryTagSelectsOneOpcode : Prop :=
  ∀ tag : Byte,
    (classify tag = .index ↔ tag.toNat ≤ 0x3F) ∧ (classify tag = .index ↔ tag &&& 0xC0 = 0x00) ∧
    (classify tag = .diff ↔ 0x40 ≤ tag.toNat ∧ tag.toNat ≤ 0x7F) ∧ (classify tag = .diff ↔ tag &&& 0xC0 = 0x40) ∧
    (classify tag = .luma ↔ 0x80 ≤ tag.toNat ∧ tag.toNat ≤ 0xBF) ∧ (classify tag = .luma ↔ tag &&& 0xC0 = 0x80) ∧
    (classify tag = .run ↔ 0xC0 ≤ tag.toNat ∧ tag.toNat ≤ 0xFD) ∧
    (classify tag = .run ↔ tag ≠ 0xFE ∧ tag ≠ 0xFF ∧ tag &&& 0xC0 = 0xC0) ∧
    (classify tag = .rgb ↔ tag = 0xFE) ∧ (classify tag = .rgba ↔ tag = 0xFF)

/-- R51, R55, R57: the tag alone fixes how many bytes follow; a chunk is rejected only where they are missing, and the
terminator's bytes never are. -/
def Obligations.OnlyMissingBytesAreRejected : Prop :=
  decode .chunk [] = .error .noTag ∧
    (∀ (tag : Byte) (rest : List Byte),
      if rest.length < (if tag = 0xFE then 3 else if tag = 0xFF then 4 else if tag.toNat / 64 = 2 then 1 else 0) then
        decode .chunk (tag :: rest) = .error (.shortChunk (classify tag))
      else
        ∃ i, decode .chunk (tag :: rest) = .ok (i,
          rest.drop (if tag = 0xFE then 3 else if tag = 0xFF then 4 else if tag.toNat / 64 = 2 then 1 else 0))) ∧
    ∀ bs, decode .term bs = .ok (.endMark (bs.take 8), bs.drop 8)

/-- 95_test_vectors.md T1 to T10 and the worked examples of R85 to R105: words written out from the encodings of R52. -/
def Obligations.SpecWordsDecode : Prop :=
  decode .chunk [0x00] = .ok (.index 0, []) ∧ decode .chunk [0x3F] = .ok (.index 63, []) ∧
    decode .chunk [0x40] = .ok (.diff 0 0 0, []) ∧ decode .chunk [0x5B] = .ok (.diff 1 2 3, []) ∧
    decode .chunk [0x7F] = .ok (.diff 3 3 3, []) ∧ decode .chunk [0x80, 0x00] = .ok (.luma 0 0 0, []) ∧
    decode .chunk [0xA5, 0x3C] = .ok (.luma 37 3 12, []) ∧ decode .chunk [0xBF, 0xFF] = .ok (.luma 63 15 15, []) ∧
    decode .chunk [0xC0] = .ok (.run 0, []) ∧ decode .chunk [0xFD] = .ok (.run 61, []) ∧
    decode .chunk [0xFE, 0xC8, 0x64, 0x32] = .ok (.rgb 200 100 50, []) ∧
    decode .chunk [0xFF, 1, 2, 3, 4, 9] = .ok (.rgba 1 2 3 4, [9]) ∧
    decode .term [0, 0, 0, 0, 0, 0, 0, 1, 0xC0] = .ok (.endMark [0, 0, 0, 0, 0, 0, 0, 1], [0xC0])

/-- R60: the assembler's operands come back from the bytes it makes, and an operand outside its range is refused. -/
def Obligations.AssemblerEncodesItsOperands : Prop :=
  (∀ r g b a : Byte,
    assemble (.rgb r.toNat g.toNat b.toNat) = some [0xFE, r, g, b] ∧
      assemble (.rgba r.toNat g.toNat b.toNat a.toNat) = some [0xFF, r, g, b, a]) ∧
    (∀ r g b a : Int,
      (¬(0 ≤ r ∧ r ≤ 255 ∧ 0 ≤ g ∧ g ≤ 255 ∧ 0 ≤ b ∧ b ≤ 255) → assemble (.rgb r g b) = none) ∧
        (¬(0 ≤ r ∧ r ≤ 255 ∧ 0 ≤ g ∧ g ≤ 255 ∧ 0 ≤ b ∧ b ≤ 255 ∧ 0 ≤ a ∧ a ≤ 255) → assemble (.rgba r g b a) = none)) ∧
    (∀ i : Int,
      if 0 ≤ i ∧ i ≤ 63 then
        ∃ bs idx, assemble (.index i) = some bs ∧ decode .chunk bs = .ok (.index idx, []) ∧ idx.toNat = i
      else assemble (.index i) = none) ∧
    (∀ dr dg db : Int,
      if -2 ≤ dr ∧ dr ≤ 1 ∧ -2 ≤ dg ∧ dg ≤ 1 ∧ -2 ≤ db ∧ db ≤ 1 then
        ∃ bs fr fg fb, assemble (.diff dr dg db) = some bs ∧ decode .chunk bs = .ok (.diff fr fg fb, []) ∧
          diffDelta fr = dr ∧ diffDelta fg = dg ∧ diffDelta fb = db
      else assemble (.diff dr dg db) = none) ∧
    (∀ dg drg dbg : Int,
      if -32 ≤ dg ∧ dg ≤ 31 ∧ -8 ≤ drg ∧ drg ≤ 7 ∧ -8 ≤ dbg ∧ dbg ≤ 7 then
        ∃ bs fg frg fbg, assemble (.luma dg drg dbg) = some bs ∧ decode .chunk bs = .ok (.luma fg frg fbg, []) ∧
          lumaGreen fg = dg ∧ lumaOther frg dg = dg + drg ∧ lumaOther fbg dg = dg + dbg
      else assemble (.luma dg drg dbg) = none) ∧
    (∀ n : Int,
      if 1 ≤ n ∧ n ≤ 62 then
        ∃ bs fn, assemble (.run n) = some bs ∧ decode .chunk bs = .ok (.run fn, []) ∧ (runLength fn : Int) = n
      else assemble (.run n) = none) ∧
    assemble .endMark = some [0, 0, 0, 0, 0, 0, 0, 1] ∧
    (∀ bs : List Byte, assemble (.bytes (bs.map fun b => (b.toNat : Int))) = some bs) ∧
    ∀ vs : List Int, (∃ v ∈ vs, ¬(0 ≤ v ∧ v ≤ 255)) → assemble (.bytes vs) = none

/-! ### Arithmetic -/

/-- R7, R56, R75: a channel update is the sum modulo 256, deltas may be added one after another, and each delta stays in its
range. -/
def Obligations.ChannelArithmeticWraps : Prop :=
  (∀ (c : Byte) (d : Int), ((add8 c d).toNat : Int) = (c.toNat + d) % 256) ∧
    (∀ (c : Byte) (d e : Int), add8 (add8 c d) e = add8 c (d + e)) ∧
    (∀ f : BitVec 2, -2 ≤ diffDelta f ∧ diffDelta f ≤ 1) ∧
    ∀ (fg : BitVec 6) (f : BitVec 4),
      -32 ≤ lumaGreen fg ∧ lumaGreen fg ≤ 31 ∧ -40 ≤ lumaOther f (lumaGreen fg) ∧ lumaOther f (lumaGreen fg) ≤ 38

/-- R77: the cache index function is the exact linear combination modulo 64; the sum is at most 6630. -/
def Obligations.HashIsTheLinearCombination : Prop :=
  ∀ p : Pixel,
    (pixelHash p).toNat = (p.r.toNat * 3 + p.g.toNat * 5 + p.b.toNat * 7 + p.a.toNat * 11) % 64 ∧
      p.r.toNat * 3 + p.g.toNat * 5 + p.b.toNat * 7 + p.a.toNat * 11 ≤ 6630

/-- R78 (a): the hash may be computed in wrapping 8-bit arithmetic, and only the low six bits of each channel matter. -/
def Obligations.HashNeedsOnlyLowBits : Prop :=
  (∀ p : Pixel, pixelHash p = (p.r * 3 + p.g * 5 + p.b * 7 + p.a * 11).setWidth 6) ∧
    ∀ p q : Pixel,
      p.r.setWidth 6 = q.r.setWidth 6 → p.g.setWidth 6 = q.g.setWidth 6 → p.b.setWidth 6 = q.b.setWidth 6 →
        p.a.setWidth 6 = q.a.setWidth 6 → pixelHash p = pixelHash q

/-! ### The chunks: what each does, in `exec` and from its bytes, and where it fails -/

/-- R85: RGB, from `FE r g b`; fewer than three bytes after the tag fail. -/
def Obligations.RgbChunk : Prop :=
  (∀ (s : State) (r g b : Byte), s.phase = .chunk → ExecProduces (.rgb r g b) s ⟨r, g, b, s.last.a⟩ 1) ∧
    (∀ (s : State) (r g b : Byte) (rest : List Byte), s.Decoding → s.remaining = 0xFE :: r :: g :: b :: rest →
      StepProduces s 4 ⟨r, g, b, s.last.a⟩ 1) ∧
    ∀ (s : State) (rest : List Byte), s.Decoding → s.remaining = 0xFE :: rest → rest.length < 3 → StepFails s

/-- R86: RGBA, from `FF r g b a`; fewer than four bytes after the tag fail. -/
def Obligations.RgbaChunk : Prop :=
  (∀ (s : State) (r g b a : Byte), s.phase = .chunk → ExecProduces (.rgba r g b a) s ⟨r, g, b, a⟩ 1) ∧
    (∀ (s : State) (r g b a : Byte) (rest : List Byte), s.Decoding →
      s.remaining = 0xFF :: r :: g :: b :: a :: rest → StepProduces s 5 ⟨r, g, b, a⟩ 1) ∧
    ∀ (s : State) (rest : List Byte), s.Decoding → s.remaining = 0xFF :: rest → rest.length < 4 → StepFails s

/-- R90: INDEX, from a tag 00 to 3F, produces the slot `tag[5:0]` verbatim; the commit writes the slot of the pixel's hash. -/
def Obligations.IndexChunk : Prop :=
  (∀ (s : State) (idx : Slot), s.phase = .chunk → ExecProduces (.index idx) s (s.seenAt idx) 1) ∧
    ∀ (s : State) (tag : Byte) (rest : List Byte), s.Decoding → s.remaining = tag :: rest → tag.toNat ≤ 0x3F →
      StepProduces s 1 (s.seenAt (tag.setWidth 6)) 1

/-- R95: DIFF, from a tag 40 to 7F, with the deltas of the source's expressions. -/
def Obligations.DiffChunk : Prop :=
  (∀ (s : State) (fr fg fb : BitVec 2), s.phase = .chunk →
    ExecProduces (.diff fr fg fb) s
      ⟨add8 s.last.r (fr.toNat - 2), add8 s.last.g (fg.toNat - 2), add8 s.last.b (fb.toNat - 2), s.last.a⟩ 1) ∧
    ∀ (s : State) (tag : Byte) (rest : List Byte), s.Decoding → s.remaining = tag :: rest →
      0x40 ≤ tag.toNat → tag.toNat ≤ 0x7F →
        StepProduces s 1
          ⟨add8 s.last.r (((tag >>> 4) &&& 3).toNat - 2), add8 s.last.g (((tag >>> 2) &&& 3).toNat - 2),
            add8 s.last.b ((tag &&& 3).toNat - 2), s.last.a⟩ 1

/-- R96: LUMA, from a tag 80 to BF and one byte, with the deltas of the source's expressions; no byte after the tag fails. -/
def Obligations.LumaChunk : Prop :=
  (∀ (s : State) (fg : BitVec 6) (frg fbg : BitVec 4), s.phase = .chunk →
    ExecProduces (.luma fg frg fbg) s
      ⟨add8 s.last.r (frg.toNat - 8 + (fg.toNat - 32)), add8 s.last.g (fg.toNat - 32),
        add8 s.last.b (fbg.toNat - 8 + (fg.toNat - 32)), s.last.a⟩ 1) ∧
    (∀ (s : State) (tag byte1 : Byte) (rest : List Byte), s.Decoding → s.remaining = tag :: byte1 :: rest →
      0x80 ≤ tag.toNat → tag.toNat ≤ 0xBF →
        StepProduces s 2
          ⟨add8 s.last.r (((byte1 >>> 4) &&& 0xF).toNat - 8 + ((tag &&& 0x3F).toNat - 32)),
            add8 s.last.g ((tag &&& 0x3F).toNat - 32),
            add8 s.last.b ((byte1 &&& 0xF).toNat - 8 + ((tag &&& 0x3F).toNat - 32)), s.last.a⟩ 1) ∧
    ∀ (s : State) (tag : Byte), s.Decoding → s.remaining = [tag] → 0x80 ≤ tag.toNat → tag.toNat ≤ 0xBF → StepFails s

/-- R100, R102, R104: RUN, from a tag C0 to FD, repeats the last pixel `(tag & 3F) + 1` times, clamped at the pixels still
required (the spec's decision D7: derived). -/
def Obligations.RunChunk : Prop :=
  (∀ (s : State) (fn : BitVec 6), s.phase = .chunk →
    ExecProduces (.run fn) s s.last (min (fn.toNat + 1) (s.size.toNat - s.count.toNat))) ∧
    (∀ (s : State) (fn : BitVec 6), s.phase = .chunk → ¬s.overshotBy (.run fn) →
      ExecProduces (.run fn) s s.last (fn.toNat + 1)) ∧
    ∀ (s : State) (tag : Byte) (rest : List Byte), s.Decoding → s.remaining = tag :: rest →
      0xC0 ≤ tag.toNat → tag.toNat ≤ 0xFD →
        StepProduces s 1 s.last (min ((tag &&& 0x3F).toNat + 1) (s.size.toNat - s.count.toNat))

/-- R101, R103: the repetitions write one slot with one value, so one write is as good as all of them, and consecutive runs
add their lengths. -/
def Obligations.RunWritesAreIdempotent : Prop :=
  (∀ (s : State) (m : Nat), 0 < m → (s.commitLast m).seen = (s.commit s.last).seen) ∧
    ∀ (s : State) (m n : Nat), (s.commitLast m).commitLast n = s.commitLast (m + n)

/-- R105, R108: END with the eight terminator bytes ends the decode in DONE, with nothing after them read. -/
def Obligations.EndAcceptsTheTerminator : Prop :=
  (∀ s : State, s.phase = .term →
    exec (.endMark [0, 0, 0, 0, 0, 0, 0, 1]) s = .next { s with phase := .done }) ∧
    ∀ (s : State) (rest : List Byte), s.phase = .term → s.cmd = none →
      s.remaining = [0, 0, 0, 0, 0, 0, 0, 1] ++ rest →
        ∃ t, step s = .next t ∧ t.phase = .done ∧ t.err = s.err ∧ t.pos = s.pos + 8 ∧ t.remaining = rest ∧
          SamePixels s t ∧ SamePorts s t

/-- R105, R106, R107: any other bytes, or fewer than eight, end it in ERROR with BadEnding; all eight, or all that remain,
are consumed (the spec's decision D8: derived). -/
def Obligations.EndRejectsAnythingElse : Prop :=
  (∀ (s : State) (bytes : List Byte), s.phase = .term → bytes ≠ [0, 0, 0, 0, 0, 0, 0, 1] →
    exec (.endMark bytes) s = .next { s with phase := .error, err := .badEnding }) ∧
    ∀ s : State, s.phase = .term → s.cmd = none → s.remaining.take 8 ≠ [0, 0, 0, 0, 0, 0, 0, 1] →
      ∃ t, step s = .next t ∧ t.phase = .error ∧ t.err = .badEnding ∧ t.pos = s.pos + min 8 s.remaining.length ∧
        SamePixels s t ∧ SamePorts s t

/-! ### Frames -/

/-- R13, R37, R76, R80: RGB, RGBA, INDEX, DIFF, LUMA and RUN only append to the output, write only the cache slot of the
pixel they leave in `last`, and change no port, cursor, phase or error. -/
def Obligations.ChunkFrame : Prop :=
  ∀ (i : Instr) (s t : State), i.context = .chunk → exec i s = .next t →
    SamePorts s t ∧ t.pos = s.pos ∧ t.phase = s.phase ∧ t.err = s.err ∧ (∃ ps, t.pixels = s.pixels ++ ps) ∧
      ∀ j : Slot, j ≠ pixelHash t.last → t.seenAt j = s.seenAt j

/-- R105: END touches only `phase` and `err`. -/
def Obligations.EndFrame : Prop :=
  ∀ (bytes : List Byte) (s t : State), exec (.endMark bytes) s = .next t →
    SamePixels s t ∧ SamePorts s t ∧ t.pos = s.pos ∧
      (t.phase = .done ∧ t.err = s.err ∨ t.phase = .error ∧ t.err = .badEnding)

/-- R70, R109: given to `exec` outside its own phase an instruction faults by name: a chunk outside CHUNK, END outside TERM
(the fault is the model's: log 4). -/
def Obligations.OutOfPhaseFaults : Prop :=
  ∀ (i : Instr) (s : State),
    exec i s = .fault .outOfPhase ↔ ¬(i.context = .chunk ∧ s.phase = .chunk ∨ i.context = .term ∧ s.phase = .term)

/-! ### Alpha -/

/-- R97: over any sequence of DIFF and LUMA chunks alpha stays what it was, in `last` and in every pixel produced. -/
def Obligations.DeltaChunksKeepAlpha : Prop :=
  ∀ (is : List Instr) (s : State),
    (∀ i ∈ is, (∃ fr fg fb, i = .diff fr fg fb) ∨ ∃ fg frg fbg, i = .luma fg frg fbg) → s.phase = .chunk →
      ∃ t ps, execAll is s = .next t ∧ t.last.a = s.last.a ∧ t.pixels = s.pixels ++ ps ∧ ∀ p ∈ ps, p.a = s.last.a

/-- R24 (g), R81: only RGBA and INDEX can change alpha, so after START it is 255 until the first of them. -/
def Obligations.AlphaChangesOnlyByRgbaAndIndex : Prop :=
  (∀ (i : Instr) (s t : State), exec i s = .next t → t.last.a ≠ s.last.a →
    (∃ r g b a, i = .rgba r g b a) ∨ ∃ idx, i = .index idx) ∧
    ∀ (is : List Instr) (size : Count) (src : List Byte) (t : State), LeadsTo is (State.start size src) t →
      (∀ i ∈ is, (∀ r g b a, i ≠ .rgba r g b a) ∧ ∀ idx, i ≠ .index idx) → t.last.a = 255

/-! ### The cache -/

/-- R93: INDEX of a pixel's hash reproduces it, however many other pixels were committed since, none of the same hash. -/
def Obligations.IndexReturnsTheLatestCommit : Prop :=
  ∀ (s : State) (p : Pixel) (ps : List Pixel), s.phase = .chunk → (∀ q ∈ ps, pixelHash q ≠ pixelHash p) →
    ∃ t, exec (.index (pixelHash p)) (ps.foldl State.commit (s.commit p)) = .next t ∧ t.last = p ∧
      t.pixels = s.pixels ++ [p] ++ ps ++ [p]

/-- R91, R92: with a well-formed cache, INDEX rewrites the slot it read, except that an all-zero pixel read elsewhere than in
slot 0 is committed to slot 0. -/
def Obligations.IndexCommitsWhereTheHashSays : Prop :=
  ∀ (s : State) (idx : Slot), s.phase = .chunk → s.CacheWf →
    ∃ t, exec (.index idx) s = .next t ∧
      if s.seenAt idx ≠ Config.zero ∨ idx = 0 then t.seen = s.seen
      else t.last = Config.zero ∧ t.seenAt 0 = Config.zero ∧ ∀ j : Slot, j ≠ 0 → t.seenAt j = s.seenAt j

/-- R12, R93: the cache is at every moment the function of the output that the rules say, at reset. -/
def Obligations.CacheHistoryAtReset : Prop := State.reset.CacheIsHistory

/-- R12, R76, R93: every step keeps the cache equal to what the output says: each slot the last pixel hashing to it. -/
def Obligations.StepKeepsCacheHistory : Prop :=
  ∀ s t : State, s.CacheIsHistory → step s = .next t → t.CacheIsHistory

/-- R24 (d), (e), (f) from R12 and R76: from a state whose cache is what the output says and whose previous pixel is the
final one, every step leaves the previous pixel the final one, every slot ZERO or a pixel that hashes to it, and the most
recent pixel in its slot. -/
def Obligations.StepLeavesCacheWellFormed : Prop :=
  ∀ s t : State, s.CacheIsHistory → s.LastIsFinal → step s = .next t → t.LastIsFinal ∧ t.CacheWf ∧ t.LastIsCached

/-! ### The step -/

/-- R70, R71: a step runs the instruction decoded at the cursor, its bytes consumed first and the loop test made after. -/
def Obligations.StepRunsTheDecodedInstruction : Prop :=
  ∀ (s : State) (c : Context) (i : Instr) (rest : List Byte), s.cmd = none →
    (c = .chunk ∧ s.phase = .chunk ∨ c = .term ∧ s.phase = .term) → decode c s.remaining = .ok (i, rest) →
      step s =
        match exec i { s with pos := s.pos + i.length } with
        | .next t => .next (if t.phase = .chunk ∧ t.count = t.size then { t with phase := .term } else t)
        | .fault f => .fault f
        | .refused r => .refused r

/-- R33 (b), R42: a fetch consumes exactly the bytes of the instruction it answers and changes nothing but the cursor. -/
def Obligations.FetchConsumesExactlyTheInstruction : Prop :=
  ∀ (s s' : State) (i : Instr), s.fetch = .instr i s' →
    s' = { s with pos := s.pos + i.length } ∧ s.remaining = encode i ++ s'.remaining

/-- R33 (a): a chunk, and a full terminator check, depend on no byte beyond their own. -/
def Obligations.NoLookAhead : Prop :=
  ∀ (s s' t : State) (i : Instr) (src : List Byte), s.cmd = none → s.fetch = .instr i s' →
    (∀ bytes, i = .endMark bytes → bytes.length = 8) → src.take s'.pos = s.src.take s'.pos → step s = .next t →
      step { s with src := src } = .next { t with src := src }

/-- R57, R118: in every state the step answers a next state: nothing a stream or a host does faults or is refused. In IDLE,
DONE and ERROR, where R73 and R121 say that `Step` is not defined, that there is a step at all is the model's choice (log 3).
-/
def Obligations.StepAlwaysAnswers : Prop := ∀ s : State, ∃ t, step s = .next t

/-- R17, R70: the only changes of control without a command are CHUNK to TERM (exactly when the count is reached), CHUNK to
ERROR, TERM to DONE and TERM to ERROR. That a finished decode holds its state is the model's choice (log 3). -/
def Obligations.PhaseChanges : Prop :=
  ∀ s t : State, s.cmd = none → step s = .next t →
    match s.phase with
    | .chunk => t.phase = .error ∨ t.phase = (if t.count = t.size then .term else .chunk)
    | .term => t.phase = .done ∨ t.phase = .error
    | .idle => t = s
    | .done => t = s
    | .error => t = s

/-- R27, R73, R122: with no command presented, a decode that is over (or not begun) holds its state for ever (that this is a
step at all is the model's: log 3). -/
def Obligations.FinishedDecodeHoldsItsState : Prop :=
  ∀ (s : State) (k : Nat), s.cmd = none → s.busy = false → runSteps k s = .next s

/-! ### Errors -/

/-- R72, R116: UnexpectedInputEnd is raised exactly when a tag or a trailing byte is missing in CHUNK, and then nothing is
committed and the whole source is consumed. -/
def Obligations.UnexpectedInputEndExactly : Prop :=
  ∀ s : State, s.cmd = none → s.phase ≠ .error →
    ((∃ t, step s = .next t ∧ t.phase = .error ∧ t.err = .unexpectedInputEnd) ↔
      s.phase = .chunk ∧
        (s.remaining = [] ∨
          ∃ tag rest, s.remaining = tag :: rest ∧
            (tag = 0xFE ∧ rest.length ≤ 2 ∨ tag = 0xFF ∧ rest.length ≤ 3 ∨
              0x80 ≤ tag.toNat ∧ tag.toNat ≤ 0xBF ∧ rest.length = 0))) ∧
      ∀ t, step s = .next t → t.phase = .error → t.err = .unexpectedInputEnd → FailedAtEnd s .unexpectedInputEnd t

/-- R117: BadEnding is raised exactly when, in TERM, some byte differs or fewer than eight remain. -/
def Obligations.BadEndingExactly : Prop :=
  ∀ s : State, s.cmd = none → s.phase ≠ .error →
    ((∃ t, step s = .next t ∧ t.phase = .error ∧ t.err = .badEnding) ↔
      s.phase = .term ∧ s.remaining.take 8 ≠ [0, 0, 0, 0, 0, 0, 0, 1])

/-! ### Invariants -/

/-- R24, R26: the invariant holds at reset. -/
def Obligations.InvariantAtReset : Prop := State.reset.Inv

/-- R24 (a) to (f), with R16, R17, R18 and R22: every step, from every state, whatever command is presented, keeps the
invariant. -/
def Obligations.StepKeepsInvariant : Prop := ∀ s t : State, s.Inv → step s = .next t → t.Inv

/-! ### Reset and start -/

/-- R26, R112, R135, R136: the state RESET leaves, field by field, and that RESET reaches it from every state. The empty
source is the model's choice (log 1). -/
def Obligations.ResetLeavesTheFreshState : Prop :=
  State.reset.last = ⟨0, 0, 0, 255⟩ ∧ (∀ i, State.reset.seenAt i = ⟨0, 0, 0, 0⟩) ∧ State.reset.pixels = [] ∧
    State.reset.size = 0 ∧ State.reset.count = 0 ∧ State.reset.pos = 0 ∧ State.reset.phase = .idle ∧
    State.reset.err = .none ∧ State.reset.micro = Micro.rest ∧ State.reset.out = none ∧ State.reset.src = [] ∧
    State.reset.seenAt (pixelHash State.reset.last) ≠ State.reset.last ∧
    ∀ s : State, s.cmd = some .reset → step s = .next State.reset

/-- R26, R110, R111: START, given while the block is not busy, leaves the fresh state with the given size and source; given
while it is busy it changes nothing (the spec's decision D5: derived). -/
def Obligations.StartBeginsAFreshDecode : Prop :=
  ∀ (s : State) (sizeIn : Count) (src : List Byte), s.cmd = some (.start sizeIn src) →
    if s.busy = true then step s = .next { s with cmd := none }
    else
      ∃ t, step s = .next t ∧ t.size = sizeIn ∧ t.last = ⟨0, 0, 0, 255⟩ ∧ (∀ i, t.seenAt i = ⟨0, 0, 0, 0⟩) ∧
        t.pixels = [] ∧ t.count = 0 ∧ t.pos = 0 ∧ t.err = .none ∧ t.micro = Micro.rest ∧ t.out = none ∧ t.src = src ∧
        t.cmd = none ∧ t.phase = if sizeIn = 0 then .term else .chunk

/-- R25: nothing a previous decode left behind can influence the next one: after the same START two blocks run alike. -/
def Obligations.StartForgetsThePast : Prop :=
  ∀ (s s' : State) (sizeIn : Count) (src : List Byte) (k : Nat), s.busy = false → s'.busy = false →
    s.cmd = some (.start sizeIn src) → s'.cmd = some (.start sizeIn src) → runSteps (k + 1) s = runSteps (k + 1) s'

/-! ### Whole decodes -/

/-- R73: a chunk step that does not fail consumes one to five bytes and commits one to 62 pixels. -/
def Obligations.ChunkStepMakesProgress : Prop :=
  ∀ s t : State, s.Decoding → s.count.toNat < s.size.toNat → step s = .next t → t.phase ≠ .error →
    s.pos < t.pos ∧ t.pos ≤ s.pos + 5 ∧ s.pixels.length < t.pixels.length ∧ t.pixels.length ≤ s.pixels.length + 62

/-- R73: from every busy state that meets the invariant the decode is over after at most (bytes left) + 2 steps and at most
(pixels required) + 1 steps. -/
def Obligations.EveryDecodeEnds : Prop :=
  ∀ s : State, s.Inv → s.busy = true → s.cmd = none →
    ∃ k t, k ≤ s.remaining.length + 2 ∧ k ≤ s.room + 1 ∧ runSteps k s = .next t ∧
      (t.phase = .done ∨ t.phase = .error)

/-- R13, R105, R107, R108: a decode that reaches DONE has exactly `size` pixels as its result, and the eight bytes before the
cursor are the terminator. -/
def Obligations.DoneOnlyThroughTheTerminator : Prop :=
  ∀ (k : Nat) (size : Count) (src : List Byte) (t : State), runSteps k (State.start size src) = .next t →
    t.phase = .done →
      t.pixels.length = size.toNat ∧ t.result = some (.ok t.pixels) ∧ 8 ≤ t.pos ∧ t.src = src ∧
        (src.drop (t.pos - 8)).take 8 = [0, 0, 0, 0, 0, 0, 0, 1]

/-- R33 (c), R70, R105, R108: a stream made of the encodings of chunks that produce exactly `size` pixels, the terminator, and
any bytes after it, decodes to DONE with the pixels those chunks produce, and the bytes after it are not consumed. -/
def Obligations.StreamOfChunksDecodes : Prop :=
  ∀ (is : List Instr) (size : Count) (src junk : List Byte) (u : State),
    (∀ i ∈ is, i.wf = true ∧ i.context = .chunk) →
      src = is.flatMap encode ++ [0, 0, 0, 0, 0, 0, 0, 1] ++ junk →
        LeadsTo is (State.start size src) u → u.count = size →
          runSteps (is.length + 1) (State.start size src) =
            .next { u with phase := .done, pos := (is.flatMap encode).length + 8 }

/-! ### Ports and the byte-granular machine -/

/-- R17 to R20: the status ports and their codes (the codes are the spec's decision D6: derived). -/
def Obligations.StatusPorts : Prop :=
  ∀ s : State,
    s.status.size = s.size ∧ s.status.count = s.count ∧
      s.status.phase = (match s.phase with | .idle => 0 | .chunk => 1 | .term => 2 | .done => 3 | .error => 4) ∧
      s.status.err = (match s.err with | .none => 0 | .unexpectedInputEnd => 1 | .badEnding => 2) ∧
      (s.status.busy = true ↔ s.phase = .chunk ∨ s.phase = .term) ∧ (s.status.done = true ↔ s.phase = .done) ∧
      (s.status.error = true ↔ s.phase = .error)

/-- R38: the packing of a pixel into the output word, red most significant (the spec's decision D3: derived). -/
def Obligations.OutputWordPacking : Prop :=
  ∀ (s : State) (p : Pixel), s.out = some p →
    ∃ w, s.outPixel = some w ∧ w.extractLsb' 24 8 = p.r ∧ w.extractLsb' 16 8 = p.g ∧ w.extractLsb' 8 8 = p.b ∧
      w.extractLsb' 0 8 = p.a

/-- R34: `in_ready` holds only in CHUNK and TERM and not while a RUN is committing; `in_valid` and `in_eos` never hold
together, and a byte is offered exactly when `in_valid` may rise. -/
def Obligations.InputSignals : Prop :=
  ∀ s : State,
    (s.inReady = true → (s.phase = .chunk ∨ s.phase = .term) ∧ s.micro.runLeft = 0) ∧
      (s.busy = true → s.micro.runLeft = 0 → s.out = none → s.inReady = true) ∧
      ¬(s.inValid = true ∧ s.inEos = true) ∧ (s.inValid = true ↔ s.inData.isSome = true)

/-- R34, R38: an offer or an acceptance at a moment the block does not want it changes nothing; otherwise it is the one
handshake that can happen. That there is only one, an input offered while a pixel waits changing nothing, is the model's choice
(`in_ready` low while a pixel waits: log 5). -/
def Obligations.EventsWaitOrHandshake : Prop :=
  ∀ s : State,
    (s.event .input = s ∨ s.event .input = s.handshake) ∧ (s.event .output = s ∨ s.event .output = s.handshake)

/-- R38, R42: an event commits at most one pixel, presents it on the output, and does so only when the output is free or its
pixel is being taken: each pixel is presented exactly once, in commit order. -/
def Obligations.EachCommitIsPresentedOnce : Prop :=
  ∀ (s : State) (e : PortEvent), e = .input ∨ e = .output →
    ((s.event e).pixels = s.pixels ∧ ((s.event e).out = s.out ∨ e = .output ∧ (s.event e).out = none)) ∨
      ∃ p, (s.event e).pixels = s.pixels ++ [p] ∧ (s.event e).out = some p ∧ (s.out = none ∨ e = .output)

/-- R24 at every handshake: every event, commands among them, keeps the invariant of the byte-granular machine. -/
def Obligations.EventsKeepPortInvariant : Prop :=
  State.reset.PortInv ∧ ∀ (s : State) (e : PortEvent), s.PortInv → (s.event e).PortInv

/-- R22: some number of handshakes after a chunk boundary gives exactly what the chunk-granular step gives, with the
micro-state at rest again where a chunk completed, and all eight terminator bytes counted and right in DONE (that they stay
counted is the model's choice: log 5). -/
def Obligations.HandshakesRefineStep : Prop :=
  ∀ s t : State, s.Inv → s.busy = true → s.cmd = none → step s = .next t →
    ∃ n, { State.handshake^[n] s with micro := Micro.rest } = t ∧
      (t.phase = .chunk ∨ t.phase = .term → (State.handshake^[n] s).micro = Micro.rest) ∧
      (t.phase = .done → (State.handshake^[n] s).micro = { Micro.rest with termCnt := 8 })

/-- R22, R146: whatever the schedule of offers and acceptances, once the byte-granular decode is over, its outputs are those
of the chunk-granular machine. -/
def Obligations.ScheduleDoesNotMatter : Prop :=
  ∀ (s : State) (es : List PortEvent), s.Inv → s.busy = true → s.cmd = none → (∀ e ∈ es, e = .input ∨ e = .output) →
    (s.events es).busy = false →
      ∃ k t, runSteps k s = .next t ∧ t.phase = (s.events es).phase ∧ t.err = (s.events es).err ∧
        t.count = (s.events es).count ∧ t.pos = (s.events es).pos ∧ t.pixels = (s.events es).pixels ∧
        (s.events es).out = none

/-- R22 at every handshake: every event keeps the micro-state what the table says it holds: the tag and the trailing bytes of
the chunk in progress, a RUN with pixels left among them, and the terminator bytes counted. What the table holds after the
decode is over, and 0 in `tag_latch` for no chunk, are the model's choice (log 5). -/
def Obligations.EventsKeepMicroState : Prop :=
  State.reset.MicroInv ∧ ∀ (s : State) (e : PortEvent), s.MicroInv → (s.event e).MicroInv
end

