-- ==== Sys2Proof/Laws/Decode.lean ====
section
/-! SUPPORT. What the decoder answers, tag by tag (spec 30_encoding.md R51 to R55). -/

namespace Sys2Proof

theorem decodeChunk_cons (tag : Byte) (rest : List Byte) :
    (∃ i rest', decodeChunk (tag :: rest) = .ok (i, rest') ∧ rest' = rest.drop (classify tag).trailing ∧
        (classify tag).trailing ≤ rest.length) ∨
      (decodeChunk (tag :: rest) = .error (.shortChunk (classify tag)) ∧ rest.length < (classify tag).trailing) := by
  cases hop : classify tag
  case rgb =>
    rcases rest with _ | ⟨r, _ | ⟨g, _ | ⟨b, rest⟩⟩⟩ <;> simp [decodeChunk, hop, Opcode.trailing]
  case rgba =>
    rcases rest with _ | ⟨r, _ | ⟨g, _ | ⟨b, _ | ⟨a, rest⟩⟩⟩⟩ <;> simp [decodeChunk, hop, Opcode.trailing]
  case luma => rcases rest with _ | ⟨x, rest⟩ <;> simp [decodeChunk, hop, Opcode.trailing]
  all_goals simp [decodeChunk, hop, Opcode.trailing]

/-- The tag and its trailing bytes are one more than the trailing bytes (R51, R55). -/
theorem decodeChunk_length {tag : Byte} {rest rest' : List Byte} {i : Instr}
    (h : decodeChunk (tag :: rest) = .ok (i, rest')) : i.length = 1 + (classify tag).trailing := by
  cases hop : classify tag <;> simp only [decodeChunk, hop] at h
  case rgb => rcases rest with _ | ⟨r, _ | ⟨g, _ | ⟨b, rest⟩⟩⟩ <;> simp at h; obtain ⟨rfl, -⟩ := h; rfl
  case rgba =>
    rcases rest with _ | ⟨r, _ | ⟨g, _ | ⟨b, _ | ⟨a, rest⟩⟩⟩⟩ <;> simp at h; obtain ⟨rfl, -⟩ := h; rfl
  case luma => rcases rest with _ | ⟨x, rest⟩ <;> simp at h; obtain ⟨rfl, -⟩ := h; rfl
  all_goals simp at h; obtain ⟨rfl, -⟩ := h; rfl

/-- A chunk read takes its length from the front, one to five bytes, and leaves the rest (R33, R51). -/
theorem decodeChunk_consumes {bs rest : List Byte} {i : Instr} (h : decodeChunk bs = .ok (i, rest)) :
    i.length ≤ bs.length ∧ 1 ≤ i.length ∧ i.length ≤ 5 ∧ rest = bs.drop i.length := by
  rcases bs with _ | ⟨tag, bs⟩
  · simp [decodeChunk] at h
  have hl := decodeChunk_length h
  have ht : (classify tag).trailing ≤ 4 := by cases classify tag <;> simp [Opcode.trailing]
  rcases decodeChunk_cons tag bs with ⟨j, r, h1, rfl, h2⟩ | ⟨h1, -⟩ <;> rw [h] at h1 <;> simp at h1
  obtain ⟨rfl, rfl⟩ := h1
  rw [hl, Nat.add_comm 1, List.drop_succ_cons, List.length_cons]
  exact ⟨by omega, by omega, by omega, rfl⟩

/-- A chunk is recognised from its own bytes: more bytes behind it change nothing (R33 a). -/
theorem decodeChunk_append {bs rest : List Byte} {i : Instr} (more : List Byte) (h : decodeChunk bs = .ok (i, rest)) :
    decodeChunk (bs ++ more) = .ok (i, rest ++ more) := by
  rcases bs with _ | ⟨tag, bs⟩
  · simp [decodeChunk] at h
  cases hop : classify tag <;> simp only [decodeChunk, List.cons_append, hop] at h ⊢
  case rgb => rcases bs with _ | ⟨r, _ | ⟨g, _ | ⟨b, bs⟩⟩⟩ <;> simp_all
  case rgba => rcases bs with _ | ⟨r, _ | ⟨g, _ | ⟨b, _ | ⟨a, bs⟩⟩⟩⟩ <;> simp_all
  case luma => rcases bs with _ | ⟨x, bs⟩ <;> simp_all
  all_goals simp_all

/-- What is decoded belongs to the context it was read in. -/
theorem decode_context {c : Context} {bs rest : List Byte} {i : Instr} (h : decode c bs = .ok (i, rest)) :
    i.context = c := by
  cases c with
  | term => simp only [decode, Except.ok.injEq, Prod.mk.injEq] at h; rw [← h.1]; rfl
  | chunk =>
    rcases bs with _ | ⟨tag, bs⟩
    · simp [decode, decodeChunk] at h
    cases hop : classify tag <;> simp only [decode, decodeChunk, hop] at h <;> (try split at h) <;> simp at h <;>
      rw [← h.1] <;> rfl

end Sys2Proof
end

