-- ==== Sys2Proof/Laws/State.lean ====
section
/-!
SUPPORT. The small lemmas of State: one per field per update, so that no later proof unfolds a record update.
-/

namespace Sys2Proof.Machine

open Sys2Proof

/-! ### Consuming bytes -/

@[simp] theorem State.advance_last (s : State) (n : Nat) :
    (s.advance n).last = s.last := rfl
@[simp] theorem State.advance_seen (s : State) (n : Nat) :
    (s.advance n).seen = s.seen := rfl
@[simp] theorem State.advance_pixels (s : State) (n : Nat) :
    (s.advance n).pixels = s.pixels := rfl
@[simp] theorem State.advance_size (s : State) (n : Nat) :
    (s.advance n).size = s.size := rfl
@[simp] theorem State.advance_count (s : State) (n : Nat) :
    (s.advance n).count = s.count := rfl
@[simp] theorem State.advance_pos (s : State) (n : Nat) :
    (s.advance n).pos = s.pos + n := rfl
@[simp] theorem State.advance_phase (s : State) (n : Nat) :
    (s.advance n).phase = s.phase := rfl
@[simp] theorem State.advance_err (s : State) (n : Nat) :
    (s.advance n).err = s.err := rfl
@[simp] theorem State.advance_micro (s : State) (n : Nat) :
    (s.advance n).micro = s.micro := rfl
@[simp] theorem State.advance_out (s : State) (n : Nat) :
    (s.advance n).out = s.out := rfl
@[simp] theorem State.advance_src (s : State) (n : Nat) :
    (s.advance n).src = s.src := rfl
@[simp] theorem State.advance_cmd (s : State) (n : Nat) :
    (s.advance n).cmd = s.cmd := rfl
@[simp] theorem State.exhaust_last (s : State) :
    (s.exhaust).last = s.last := rfl
@[simp] theorem State.exhaust_seen (s : State) :
    (s.exhaust).seen = s.seen := rfl
@[simp] theorem State.exhaust_pixels (s : State) :
    (s.exhaust).pixels = s.pixels := rfl
@[simp] theorem State.exhaust_size (s : State) :
    (s.exhaust).size = s.size := rfl
@[simp] theorem State.exhaust_count (s : State) :
    (s.exhaust).count = s.count := rfl
@[simp] theorem State.exhaust_pos (s : State) :
    (s.exhaust).pos = s.src.length := rfl
@[simp] theorem State.exhaust_phase (s : State) :
    (s.exhaust).phase = s.phase := rfl
@[simp] theorem State.exhaust_err (s : State) :
    (s.exhaust).err = s.err := rfl
@[simp] theorem State.exhaust_micro (s : State) :
    (s.exhaust).micro = s.micro := rfl
@[simp] theorem State.exhaust_out (s : State) :
    (s.exhaust).out = s.out := rfl
@[simp] theorem State.exhaust_src (s : State) :
    (s.exhaust).src = s.src := rfl
@[simp] theorem State.exhaust_cmd (s : State) :
    (s.exhaust).cmd = s.cmd := rfl

/-! ### Commit -/

@[simp] theorem State.commit_last (s : State) (p : Pixel) :
    (s.commit p).last = p := rfl
@[simp] theorem State.commit_seen (s : State) (p : Pixel) :
    (s.commit p).seen = s.seen.set (pixelHash p).toNat p (by have := (pixelHash p).isLt; omega) := rfl
@[simp] theorem State.commit_pixels (s : State) (p : Pixel) :
    (s.commit p).pixels = s.pixels ++ [p] := rfl
@[simp] theorem State.commit_size (s : State) (p : Pixel) :
    (s.commit p).size = s.size := rfl
@[simp] theorem State.commit_count (s : State) (p : Pixel) :
    (s.commit p).count = s.count + 1 := rfl
@[simp] theorem State.commit_pos (s : State) (p : Pixel) :
    (s.commit p).pos = s.pos := rfl
@[simp] theorem State.commit_phase (s : State) (p : Pixel) :
    (s.commit p).phase = s.phase := rfl
@[simp] theorem State.commit_err (s : State) (p : Pixel) :
    (s.commit p).err = s.err := rfl
@[simp] theorem State.commit_micro (s : State) (p : Pixel) :
    (s.commit p).micro = s.micro := rfl
@[simp] theorem State.commit_out (s : State) (p : Pixel) :
    (s.commit p).out = s.out := rfl
@[simp] theorem State.commit_src (s : State) (p : Pixel) :
    (s.commit p).src = s.src := rfl
@[simp] theorem State.commit_cmd (s : State) (p : Pixel) :
    (s.commit p).cmd = s.cmd := rfl

/-! ### Errors -/

@[simp] theorem State.raise_last (s : State) (e : ErrorKind) :
    (s.raise e).last = s.last := rfl
@[simp] theorem State.raise_seen (s : State) (e : ErrorKind) :
    (s.raise e).seen = s.seen := rfl
@[simp] theorem State.raise_pixels (s : State) (e : ErrorKind) :
    (s.raise e).pixels = s.pixels := rfl
@[simp] theorem State.raise_size (s : State) (e : ErrorKind) :
    (s.raise e).size = s.size := rfl
@[simp] theorem State.raise_count (s : State) (e : ErrorKind) :
    (s.raise e).count = s.count := rfl
@[simp] theorem State.raise_pos (s : State) (e : ErrorKind) :
    (s.raise e).pos = s.pos := rfl
@[simp] theorem State.raise_phase (s : State) (e : ErrorKind) :
    (s.raise e).phase = .error := rfl
@[simp] theorem State.raise_err (s : State) (e : ErrorKind) :
    (s.raise e).err = e := rfl
@[simp] theorem State.raise_micro (s : State) (e : ErrorKind) :
    (s.raise e).micro = s.micro := rfl
@[simp] theorem State.raise_out (s : State) (e : ErrorKind) :
    (s.raise e).out = s.out := rfl
@[simp] theorem State.raise_src (s : State) (e : ErrorKind) :
    (s.raise e).src = s.src := rfl
@[simp] theorem State.raise_cmd (s : State) (e : ErrorKind) :
    (s.raise e).cmd = s.cmd := rfl

/-! ### A terminator byte -/

@[simp] theorem State.compareByte_last (s : State) (b : Byte) :
    (s.compareByte b).last = s.last := rfl
@[simp] theorem State.compareByte_seen (s : State) (b : Byte) :
    (s.compareByte b).seen = s.seen := rfl
@[simp] theorem State.compareByte_pixels (s : State) (b : Byte) :
    (s.compareByte b).pixels = s.pixels := rfl
@[simp] theorem State.compareByte_size (s : State) (b : Byte) :
    (s.compareByte b).size = s.size := rfl
@[simp] theorem State.compareByte_count (s : State) (b : Byte) :
    (s.compareByte b).count = s.count := rfl
@[simp] theorem State.compareByte_pos (s : State) (b : Byte) :
    (s.compareByte b).pos = s.pos := rfl
@[simp] theorem State.compareByte_phase (s : State) (b : Byte) :
    (s.compareByte b).phase = s.phase := rfl
@[simp] theorem State.compareByte_err (s : State) (b : Byte) :
    (s.compareByte b).err = s.err := rfl
@[simp] theorem State.compareByte_micro (s : State) (b : Byte) :
    (s.compareByte b).micro =
      { s.micro with
        termOk := s.micro.termOk && terminator[s.micro.termCnt.toNat]? == some b
        termCnt := s.micro.termCnt + 1 } := rfl
@[simp] theorem State.compareByte_out (s : State) (b : Byte) :
    (s.compareByte b).out = s.out := rfl
@[simp] theorem State.compareByte_src (s : State) (b : Byte) :
    (s.compareByte b).src = s.src := rfl
@[simp] theorem State.compareByte_cmd (s : State) (b : Byte) :
    (s.compareByte b).cmd = s.cmd := rfl

/-! ### The loop test -/

@[simp] theorem State.loopTest_last (s : State) : s.loopTest.last = s.last := by
  unfold State.loopTest; split <;> rfl
@[simp] theorem State.loopTest_seen (s : State) : s.loopTest.seen = s.seen := by
  unfold State.loopTest; split <;> rfl
@[simp] theorem State.loopTest_pixels (s : State) : s.loopTest.pixels = s.pixels := by
  unfold State.loopTest; split <;> rfl
@[simp] theorem State.loopTest_size (s : State) : s.loopTest.size = s.size := by
  unfold State.loopTest; split <;> rfl
@[simp] theorem State.loopTest_count (s : State) : s.loopTest.count = s.count := by
  unfold State.loopTest; split <;> rfl
@[simp] theorem State.loopTest_pos (s : State) : s.loopTest.pos = s.pos := by
  unfold State.loopTest; split <;> rfl
@[simp] theorem State.loopTest_phase (s : State) :
    s.loopTest.phase = if s.phase = .chunk ∧ s.count = s.size then .term else s.phase := by
  unfold State.loopTest; split <;> rfl
@[simp] theorem State.loopTest_err (s : State) : s.loopTest.err = s.err := by
  unfold State.loopTest; split <;> rfl
@[simp] theorem State.loopTest_micro (s : State) : s.loopTest.micro = s.micro := by
  unfold State.loopTest; split <;> rfl
@[simp] theorem State.loopTest_out (s : State) : s.loopTest.out = s.out := by
  unfold State.loopTest; split <;> rfl
@[simp] theorem State.loopTest_src (s : State) : s.loopTest.src = s.src := by
  unfold State.loopTest; split <;> rfl
@[simp] theorem State.loopTest_cmd (s : State) : s.loopTest.cmd = s.cmd := by
  unfold State.loopTest; split <;> rfl

/-! ### START -/

@[simp] theorem State.start_last (n : Count) (src : List Byte) : (State.start n src).last = Config.seed := rfl
@[simp] theorem State.start_seen (n : Count) (src : List Byte) : (State.start n src).seen = Vector.replicate 64 Config.zero := rfl
@[simp] theorem State.start_pixels (n : Count) (src : List Byte) : (State.start n src).pixels = [] := rfl
@[simp] theorem State.start_size (n : Count) (src : List Byte) : (State.start n src).size = n := rfl
@[simp] theorem State.start_count (n : Count) (src : List Byte) : (State.start n src).count = 0 := rfl
@[simp] theorem State.start_pos (n : Count) (src : List Byte) : (State.start n src).pos = 0 := rfl
@[simp] theorem State.start_phase (n : Count) (src : List Byte) : (State.start n src).phase = if n = 0 then .term else .chunk := rfl
@[simp] theorem State.start_err (n : Count) (src : List Byte) : (State.start n src).err = .none := rfl
@[simp] theorem State.start_micro (n : Count) (src : List Byte) : (State.start n src).micro = Micro.rest := rfl
@[simp] theorem State.start_out (n : Count) (src : List Byte) : (State.start n src).out = none := rfl
@[simp] theorem State.start_src (n : Count) (src : List Byte) : (State.start n src).src = src := rfl
@[simp] theorem State.start_cmd (n : Count) (src : List Byte) : (State.start n src).cmd = none := rfl

/-! ### RESET -/

@[simp] theorem State.reset_last : State.reset.last = Config.seed := rfl
@[simp] theorem State.reset_seen : State.reset.seen = Vector.replicate 64 Config.zero := rfl
@[simp] theorem State.reset_pixels : State.reset.pixels = [] := rfl
@[simp] theorem State.reset_size : State.reset.size = 0 := rfl
@[simp] theorem State.reset_count : State.reset.count = 0 := rfl
@[simp] theorem State.reset_pos : State.reset.pos = 0 := rfl
@[simp] theorem State.reset_phase : State.reset.phase = .idle := rfl
@[simp] theorem State.reset_err : State.reset.err = .none := rfl
@[simp] theorem State.reset_micro : State.reset.micro = Micro.rest := rfl
@[simp] theorem State.reset_out : State.reset.out = none := rfl
@[simp] theorem State.reset_src : State.reset.src = [] := rfl
@[simp] theorem State.reset_cmd : State.reset.cmd = none := rfl

/-! ### Repetitions of a RUN -/

@[simp] theorem State.commitLast_size (s : State) (m : Nat) : (s.commitLast m).size = s.size := by
  induction m generalizing s with
  | zero => rfl
  | succ m ih => simp [State.commitLast, ih]
@[simp] theorem State.commitLast_pos (s : State) (m : Nat) : (s.commitLast m).pos = s.pos := by
  induction m generalizing s with
  | zero => rfl
  | succ m ih => simp [State.commitLast, ih]
@[simp] theorem State.commitLast_phase (s : State) (m : Nat) : (s.commitLast m).phase = s.phase := by
  induction m generalizing s with
  | zero => rfl
  | succ m ih => simp [State.commitLast, ih]
@[simp] theorem State.commitLast_err (s : State) (m : Nat) : (s.commitLast m).err = s.err := by
  induction m generalizing s with
  | zero => rfl
  | succ m ih => simp [State.commitLast, ih]
@[simp] theorem State.commitLast_micro (s : State) (m : Nat) : (s.commitLast m).micro = s.micro := by
  induction m generalizing s with
  | zero => rfl
  | succ m ih => simp [State.commitLast, ih]
@[simp] theorem State.commitLast_out (s : State) (m : Nat) : (s.commitLast m).out = s.out := by
  induction m generalizing s with
  | zero => rfl
  | succ m ih => simp [State.commitLast, ih]
@[simp] theorem State.commitLast_src (s : State) (m : Nat) : (s.commitLast m).src = s.src := by
  induction m generalizing s with
  | zero => rfl
  | succ m ih => simp [State.commitLast, ih]
@[simp] theorem State.commitLast_cmd (s : State) (m : Nat) : (s.commitLast m).cmd = s.cmd := by
  induction m generalizing s with
  | zero => rfl
  | succ m ih => simp [State.commitLast, ih]
@[simp] theorem State.commitLast_last (s : State) (m : Nat) : (s.commitLast m).last = s.last := by
  induction m generalizing s with
  | zero => rfl
  | succ m ih => simp [State.commitLast, ih]

end Sys2Proof.Machine
end

