-- ==== Sys2Proof/Laws/Ops.lean ====
section
/-!
SUPPORT. One lemma per shared operation that says everything it can do; the provers cite these instead of unfolding.
-/

namespace Sys2Proof.Machine

open Sys2Proof

/-! ### The cache -/

/-- A cache write changes one slot (R37). -/
theorem State.commit_seenAt (s : State) (p : Pixel) (i : Slot) :
    (s.commit p).seenAt i = if i = pixelHash p then p else s.seenAt i := by
  have hi : (pixelHash p).toNat = i.toNat ↔ i = pixelHash p := ⟨fun h => (BitVec.eq_of_toNat_eq h).symm, fun h => h ▸ rfl⟩
  simp only [State.seenAt, State.commit_seen, Vector.getElem_set, hi]

theorem State.seenAt_congr {s t : State} (h : s.seen = t.seen) (i : Slot) : s.seenAt i = t.seenAt i := by
  simp [State.seenAt, h]

@[simp] theorem State.advance_seenAt (s : State) (n : Nat) (i : Slot) : (s.advance n).seenAt i = s.seenAt i := rfl

@[simp] theorem State.loopTest_seenAt (s : State) (i : Slot) : s.loopTest.seenAt i = s.seenAt i :=
  State.seenAt_congr (State.loopTest_seen s) i

@[simp] theorem State.start_seenAt (n : Count) (src : List Byte) (i : Slot) :
    (State.start n src).seenAt i = Config.zero := by
  simp [State.seenAt]

@[simp] theorem State.reset_seenAt (i : Slot) : State.reset.seenAt i = Config.zero := by
  simp [State.seenAt]

/-! ### Commits -/

/-- One commit is one pixel produced (R76). -/
theorem State.commit_produced (s : State) (p : Pixel) : Produced s p 1 (s.commit p) :=
  ⟨rfl, rfl, rfl, fun i => by simp [State.commit_seenAt]⟩

/-- `m` repetitions of the last pixel produce `m` copies of it (R100, R101). -/
theorem State.commitLast_produced (s : State) (m : Nat) : Produced s s.last m (s.commitLast m) := by
  induction m generalizing s with
  | zero => exact ⟨by simp [State.commitLast], by simp [State.commitLast], rfl, fun i => by simp [State.commitLast]⟩
  | succ m ih =>
    obtain ⟨hp, hc, hl, hs⟩ := ih (s.commit s.last)
    refine ⟨?_, ?_, ?_, fun i => ?_⟩
    · simpa [State.commitLast, List.replicate_succ] using hp
    · have h1 : BitVec.ofNat 64 (m + 1) = 1 + BitVec.ofNat 64 m := by
        rw [Nat.add_comm, BitVec.ofNat_add]; rfl
      simpa [State.commitLast, h1, BitVec.add_assoc] using hc
    · simp [State.commitLast]
    · have := hs i
      simp only [State.commit_last, State.commit_seenAt] at this
      simp only [State.commitLast, this]
      by_cases h : i = pixelHash s.last <;> simp [h]

/-! ### Phases, the loop test and the commands -/

/-- A meaning's guard answers the effect in its phase and the one fault elsewhere. -/
theorem inPhase_eq_next {ph : Phase} {s t u : State} : inPhase ph s t = .next u ↔ s.phase = ph ∧ u = t := by
  unfold inPhase; split <;> simp_all [eq_comm]

@[simp] theorem inPhase_of_phase {ph : Phase} {s t : State} (h : s.phase = ph) : inPhase ph s t = .next t := by
  simp [inPhase, h]

/-- `settle` answers a next state exactly when the instruction did, after the loop test. -/
theorem settle_eq_next {o : Host.Outcome State Fault Refusal} {u : State} :
    settle o = .next u ↔ ∃ t, o = .next t ∧ u = t.loopTest := by
  cases o <;> simp [settle, eq_comm]

/-- What a command does (R110, R111, R112). -/
theorem State.accept_cases (s : State) (c : Command) :
    (∃ n src, c = .start n src ∧ s.busy = true ∧ s.accept c = { s with cmd := none }) ∨
      (∃ n src, c = .start n src ∧ s.busy = false ∧ s.accept c = State.start n src) ∨
      (c = .reset ∧ s.accept c = State.reset) := by
  cases c with
  | start n src => cases h : s.busy <;> simp [State.accept, h]
  | reset => simp [State.accept]

/-! ### The source -/

theorem State.nextByte_eq_some {s t : State} {b : Byte} :
    s.nextByte = some (b, t) ↔ s.src[s.pos]? = some b ∧ t = { s with pos := s.pos + 1 } := by
  unfold State.nextByte; cases s.src[s.pos]? <;> simp [eq_comm]

theorem State.nextByte_eq_none {s : State} : s.nextByte = none ↔ s.src.length ≤ s.pos := by
  rw [← List.getElem?_eq_none_iff]; unfold State.nextByte; cases s.src[s.pos]? <;> simp

/-! ### One step -/

/-- Everything a step can do: take a command, hold, fail at the end of the source, or run the instruction fetched. -/
theorem step_cases (s : State) :
    (∃ c, s.cmd = some c ∧ step s = .next (s.accept c)) ∨
      (s.cmd = none ∧ s.fetch = .idle ∧ step s = .next s) ∨
      (s.cmd = none ∧ s.fetch = .exhausted ∧ step s = .next (s.exhaust.raise .unexpectedInputEnd)) ∨
      (∃ i s', s.cmd = none ∧ s.fetch = .instr i s' ∧ step s = settle (exec i s')) := by
  unfold step
  cases hc : s.cmd with
  | some c => exact .inl ⟨c, rfl, rfl⟩
  | none => cases hf : s.fetch <;> simp

/-- Everything an instruction can do in its own phase: produce pixels, or end the decode. -/
theorem exec_cases {i : Instr} {s t : State} (h : exec i s = .next t) :
    (s.phase = .chunk ∧ i.context = .chunk ∧ ((∃ p, t = s.commit p) ∨ ∃ m, t = s.commitLast m)) ∨
      (s.phase = .term ∧ i.context = .term ∧ (t = { s with phase := .done } ∨ t = s.raise .badEnding)) := by
  cases i <;> simp only [exec, execRgb, execRgba, execIndex, execDiff, execLuma, execRun, execEnd, inPhase_eq_next] at h <;>
    obtain ⟨hp, rfl⟩ := h
  case endMark bytes => exact .inr ⟨hp, rfl, by split <;> simp⟩
  case run fn => exact .inl ⟨hp, rfl, .inr ⟨_, rfl⟩⟩
  all_goals exact .inl ⟨hp, rfl, .inl ⟨_, rfl⟩⟩

end Sys2Proof.Machine
end

