-- ==== Sys2Proof/Laws/PerInstr.lean ====
section
/-!
SUPPORT. The family EncodedLength: an instruction's encoding is as long as the length the format table gives it
(spec 30_encoding.md R51, R52).
-/

namespace Sys2Proof.Laws

open Sys2Proof

/-- The encoding takes as many bytes as the step moves past. -/
def EncodedLength.Statement (i : Instr) : Prop := (encode i).length = i.length

theorem EncodedLength.rgb (r g b : Byte) : EncodedLength.Statement (.rgb r g b) := rfl

theorem EncodedLength.rgba (r g b a : Byte) : EncodedLength.Statement (.rgba r g b a) := rfl

theorem EncodedLength.index (idx : Slot) : EncodedLength.Statement (.index idx) := rfl

theorem EncodedLength.diff (fr fg fb : BitVec 2) : EncodedLength.Statement (.diff fr fg fb) := rfl

theorem EncodedLength.luma (fg : BitVec 6) (frg fbg : BitVec 4) : EncodedLength.Statement (.luma fg frg fbg) := rfl

theorem EncodedLength.run (fn : BitVec 6) : EncodedLength.Statement (.run fn) := rfl

theorem EncodedLength.endMark (bytes : List Byte) : EncodedLength.Statement (.endMark bytes) := rfl

end Sys2Proof.Laws
end

