-- ==== Sys2Proof/Laws/Ports.lean ====
section
/-! SUPPORT. The small lemmas of the byte-granular machine: one per field of `present` and `runOne`, and when a handshake is
the input's or the output's. -/

namespace Sys2Proof.Machine

open Sys2Proof

@[simp] theorem State.present_last (s : State) : s.present.last = s.last := by simp [State.present]
@[simp] theorem State.present_seen (s : State) : s.present.seen = s.seen := by simp [State.present]
@[simp] theorem State.present_pixels (s : State) : s.present.pixels = s.pixels := by simp [State.present]
@[simp] theorem State.present_size (s : State) : s.present.size = s.size := by simp [State.present]
@[simp] theorem State.present_count (s : State) : s.present.count = s.count := by simp [State.present]
@[simp] theorem State.present_pos (s : State) : s.present.pos = s.pos := by simp [State.present]
@[simp] theorem State.present_err (s : State) : s.present.err = s.err := by simp [State.present]
@[simp] theorem State.present_micro (s : State) : s.present.micro = s.micro := by simp [State.present]
@[simp] theorem State.present_out (s : State) : s.present.out = some s.last := by simp [State.present]
@[simp] theorem State.present_src (s : State) : s.present.src = s.src := by simp [State.present]
@[simp] theorem State.present_cmd (s : State) : s.present.cmd = s.cmd := by simp [State.present]
@[simp] theorem State.present_phase (s : State) :
    s.present.phase = if s.phase = .chunk ∧ s.count = s.size then .term else s.phase := by simp [State.present]

/-- A repetition of a RUN commits the last pixel, presents it and counts down, the micro-state at rest after the last one;
all else is a commit's. -/
theorem State.runOne_eq (s : State) :
    s.runOne = { (s.commit s.last).present with
      micro := if s.micro.runLeft = 1 ∨ s.count + 1 = s.size then Micro.rest
        else { s.micro with runLeft := s.micro.runLeft - 1 } } := by
  simp [State.runOne]

/-- What a complete chunk does, given CHUNK: the pixel its meaning commits is presented, or a RUN begins. -/
theorem State.complete_cases {s : State} {tag : Byte} {i : Instr} (hp : s.phase = .chunk) (hi : i.context = .chunk) :
    (∃ p, exec i { s with micro := Micro.rest } = .next ({ s with micro := Micro.rest }.commit p) ∧
        s.complete tag i = ({ s with micro := Micro.rest }.commit p).present) ∨
      ∃ fn, i = .run fn ∧
        s.complete tag i =
          { s with micro := { Micro.rest with tagLatch := tag, runLeft := BitVec.ofNat 6 (runLength fn) } }.runOne := by
  cases i with
  | run fn => exact .inr ⟨fn, rfl, rfl⟩
  | endMark => cases hi
  | _ =>
    left
    simp only [State.complete, State.completeOne, exec, execRgb, execRgba, execIndex, execDiff, execLuma, inPhase, hp]
    exact ⟨_, rfl, rfl⟩

/-- A byte of the terminator is counted and compared, and after the eighth the phase changes (R105). -/
theorem State.termByte_cases (s : State) (b : Byte) :
    (s.micro.termCnt ≠ 7 ∧ s.termByte b = s.compareByte b) ∨
      (s.micro.termCnt = 7 ∧ (s.compareByte b).micro.termOk = true ∧
        s.termByte b = { s.compareByte b with phase := .done }) ∨
      (s.micro.termCnt = 7 ∧ (s.compareByte b).micro.termOk = false ∧
        s.termByte b = (s.compareByte b).raise .badEnding) := by
  unfold State.termByte
  by_cases h : s.micro.termCnt = 7
  · by_cases hk : (s.compareByte b).micro.termOk = true
    · exact .inr (.inl ⟨h, hk, by rw [if_pos h, if_pos hk]⟩)
    · exact .inr (.inr ⟨h, by simpa using hk, by rw [if_pos h, if_neg hk]⟩)
  · exact .inl ⟨h, if_neg h⟩

/-- While a pixel waits on the output, the only handshake is its transfer. -/
theorem State.handshake_of_out {s : State} {p : Pixel} (h : s.out = some p) : s.handshake = s.outputEvent := by
  simp [State.handshake, h]

/-- With the output free, the only handshake is the input's. -/
theorem State.handshake_of_free {s : State} (h : s.out = none) : s.handshake = s.inputEvent := by
  simp [State.handshake, h]

/-- A block that is ready has nothing on the output and is in CHUNK or TERM (R34). -/
theorem State.inReady_iff {s : State} :
    s.inReady = true ↔ s.busy = true ∧ s.micro.runLeft = 0 ∧ s.out = none := by
  simp [State.inReady, and_assoc]

end Sys2Proof.Machine
end

