-- ==== Sys2Proof/Laws/Step.lean ====
section
/-!
SUPPORT. The step taken apart once: what a fetch answers, in which phase an instruction answers, and everything a step can do
when no command is presented. The provers cite these instead of unfolding `step`.
-/

namespace Sys2Proof.Machine

open Sys2Proof

/-- The phase of each context. -/
abbrev InContext (c : Context) (s : State) : Prop := c = .chunk ∧ s.phase = .chunk ∨ c = .term ∧ s.phase = .term

/-- A fetch answers exactly the instruction decoded in the phase's context, its bytes consumed. -/
theorem State.fetch_eq_instr {s s' : State} {i : Instr} (h : s.fetch = .instr i s') :
    ∃ c rest, InContext c s ∧ decode c s.remaining = .ok (i, rest) ∧ s' = s.advance i.length := by
  unfold State.fetch at h
  split at h <;> try simp at h
  all_goals
    next hp =>
    unfold State.fetchIn at h
    split at h <;> simp at h
    next hd => obtain ⟨rfl, rfl⟩ := h; exact ⟨_, _, by simp [InContext, hp], hd, rfl⟩

/-- In CHUNK the source is exhausted exactly where the decoder rejects what remains. -/
theorem State.fetch_exhausted_iff {s : State} (hp : s.phase = .chunk) :
    s.fetch = .exhausted ↔ ∃ e, decodeChunk s.remaining = .error e := by
  simp only [State.fetch, hp, State.fetchIn, decode]
  cases decodeChunk s.remaining <;> simp

/-- In its own phase every instruction answers a next state. -/
theorem exec_answers {i : Instr} {s : State} (h : InContext i.context s) : ∃ t, exec i s = .next t := by
  cases i <;> simp [InContext, Instr.context] at h <;>
    simp [exec, execRgb, execRgba, execIndex, execDiff, execLuma, execRun, execEnd, inPhase, h]

/-- A chunk that answers was in CHUNK and stays there; the loop test comes after. -/
theorem exec_chunk_phase {i : Instr} {s t : State} (hi : i.context = .chunk) (h : exec i s = .next t) :
    s.phase = .chunk ∧ t.phase = .chunk := by
  rcases exec_cases h with ⟨hp, -, ⟨p, rfl⟩ | ⟨m, rfl⟩⟩ | ⟨-, h', -⟩
  · exact ⟨hp, hp⟩
  · simp [hp]
  · rw [hi] at h'; cases h'

/-- Everything a step can do with no command presented: hold, fail at the end of the source, run one chunk, accept the
terminator, or reject it (R70). -/
theorem step_inversion {s t : State} (hc : s.cmd = none) (h : step s = .next t) :
    (s.busy = false ∧ t = s) ∨
      (s.phase = .chunk ∧ s.fetch = .exhausted ∧ t = s.exhaust.raise .unexpectedInputEnd) ∨
      (s.phase = .chunk ∧ ∃ i rest u, decodeChunk s.remaining = .ok (i, rest) ∧ i.context = .chunk ∧
        exec i (s.advance i.length) = .next u ∧ t = u.loopTest) ∨
      (s.phase = .term ∧ s.remaining.take 8 = terminator ∧
        t = { s.advance (min 8 s.remaining.length) with phase := .done }) ∨
      (s.phase = .term ∧ s.remaining.take 8 ≠ terminator ∧
        t = (s.advance (min 8 s.remaining.length)).raise .badEnding) := by
  rcases step_cases s with ⟨c, h1, -⟩ | ⟨-, h1, h2⟩ | ⟨-, h1, h2⟩ | ⟨i, s', -, hf, h2⟩
  · rw [hc] at h1; cases h1
  · rw [h2] at h; cases h
    refine .inl ⟨?_, rfl⟩
    unfold State.fetch at h1
    split at h1 <;> simp [State.busy, *]
    all_goals (unfold State.fetchIn at h1; split at h1 <;> simp at h1)
  · rw [h2] at h; cases h
    refine .inr (.inl ⟨?_, h1, rfl⟩)
    unfold State.fetch at h1
    split at h1 <;> simp_all [State.fetchIn, decode]
  · rw [h2] at h
    obtain ⟨u, hu, rfl⟩ := settle_eq_next.1 h
    obtain ⟨c, rest, ⟨rfl, hp⟩ | ⟨rfl, hp⟩, hd, rfl⟩ := State.fetch_eq_instr hf
    · exact .inr (.inr (.inl ⟨hp, i, rest, u, hd, decode_context hd, hu, rfl⟩))
    · simp only [decode, Except.ok.injEq, Prod.mk.injEq] at hd
      obtain ⟨rfl, -⟩ := hd
      simp only [exec, execEnd, inPhase_eq_next, Instr.length, List.length_take] at hu
      obtain ⟨-, rfl⟩ := hu
      by_cases ht : s.remaining.take 8 = terminator
      · exact .inr (.inr (.inr (.inl ⟨hp, ht, by simp [ht, State.loopTest]⟩)))
      · exact .inr (.inr (.inr (.inr ⟨hp, ht, by simp [ht, State.loopTest]⟩)))

/-- Caches that read alike are equal. -/
theorem State.seen_ext {s t : State} (h : ∀ i, s.seenAt i = t.seenAt i) : s.seen = t.seen := by
  ext1 j hj
  simpa [State.seenAt, Nat.mod_eq_of_lt hj] using h (BitVec.ofNat 6 j)

end Sys2Proof.Machine
end

