-- ==== Sys2Proof/Tests/Slice0.lean ====
section
/-!
SUPPORT. The model's own tests. Expected values come from the spec's vectors (95_test_vectors.md: T, H, A, L, X, D, M, N, E)
and worked examples, never from the model. The last part shows, for every statement with hypotheses, a state and operands
that meet them.
-/

namespace Sys2Proof.Tests

open Sys2Proof Sys2Proof.Machine

/-! ### WellFormed: an ill-formed term for each check -/

theorem test_wf_refuses_run_field_62 : (Instr.run 62).wf = false := by decide
theorem test_wf_refuses_run_field_63 : (Instr.run 63).wf = false := by decide
theorem test_wf_accepts_run_field_61 : (Instr.run 61).wf = true := by decide
theorem test_wf_refuses_nine_terminator_bytes : (Instr.endMark (List.replicate 9 0)).wf = false := by decide

/-! ### Decoding: words written out bit by bit from R52 -/

theorem test_decode_rgb : decode .chunk [0b11111110, 0b11001000, 0b01100100, 0b00110010] = .ok (.rgb 200 100 50, []) := by
  rfl
theorem test_decode_rgba : decode .chunk [0b11111111, 1, 2, 3, 4] = .ok (.rgba 1 2 3 4, []) := by rfl
theorem test_decode_index : decode .chunk [0b00011111] = .ok (.index 31, []) := by rfl
theorem test_decode_diff : decode .chunk [0b01011011] = .ok (.diff 0b01 0b10 0b11, []) := by rfl
theorem test_decode_luma : decode .chunk [0b10100101, 0b00111100] = .ok (.luma 0b100101 0b0011 0b1100, []) := by rfl
theorem test_decode_run : decode .chunk [0b11111101] = .ok (.run 61, []) := by rfl
theorem test_decode_end : decode .term [0, 0, 0, 0, 0, 0, 0, 1] = .ok (.endMark [0, 0, 0, 0, 0, 0, 0, 1], []) := by rfl
theorem test_decode_term_never_classifies : decode .term [0xC0] = .ok (.endMark [0xC0], []) := by rfl
theorem test_decode_short_rgba : decode .chunk [0xFF, 1, 2, 3] = .error (.shortChunk .rgba) := by rfl
theorem test_decode_short_rgb : decode .chunk [0xFE, 1, 2] = .error (.shortChunk .rgb) := by rfl
theorem test_decode_short_luma : decode .chunk [0x80] = .error (.shortChunk .luma) := by rfl
theorem test_decode_empty : decode .chunk [] = .error .noTag := by rfl
theorem test_encode_luma : encode (.luma 37 3 12) = [0xA5, 0x3C] := by decide
theorem test_encode_diff : encode (.diff 1 2 3) = [0x5B] := by decide
theorem test_table_word_rgb : decodeTableWord 8 0xFE = some (.rgb 0 0 0) := by decide
theorem test_table_word_end : decodeTableWord 64 0x0100000000000000 = some (.endMark terminator) := by decide

/-! ### The assembler: R60's own refusal and example lines -/

theorem test_assembler_refuses_run_63 : assemble (.run 63) = none := by decide
theorem test_assembler_refuses_run_0 : assemble (.run 0) = none := by decide
theorem test_assembler_luma : assemble (.luma 5 (-5) 4) = some [0xA5, 0x3C] := by decide

/-! ### Hash and add8: vectors H and A -/

theorem test_hash_vectors :
    [pixelHash ⟨0, 0, 0, 0⟩, pixelHash ⟨0, 0, 0, 255⟩, pixelHash ⟨255, 255, 255, 255⟩, pixelHash ⟨1, 0, 0, 0⟩,
      pixelHash ⟨0, 1, 0, 0⟩, pixelHash ⟨0, 0, 1, 0⟩, pixelHash ⟨0, 0, 0, 1⟩, pixelHash ⟨128, 0, 0, 128⟩,
      pixelHash ⟨200, 100, 50, 255⟩] = [0, 53, 38, 3, 5, 7, 11, 0, 31] := by decide
theorem test_add8_vectors :
    [add8 0 (-1), add8 0 (-2), add8 1 (-2), add8 255 1, add8 0 (-40), add8 39 (-40), add8 255 38, add8 250 38,
      add8 0 (-32), add8 225 31, add8 128 0] = [255, 254, 255, 0, 216, 255, 37, 32, 224, 0, 128] := by decide

/-! ### One step on a small state -/

/-- A decode of `size` pixels from `src`, `last` set, ready for its next chunk. -/
def withLast (size : Count) (last : Pixel) (src : List Byte) : State := { State.start size src with last := last }

/-- The fresh state (R26) with the given size and source. -/
def fresh (size : Count) (src : List Byte) : State := State.start size src

/-- A check on the next state, false of a fault or a refusal. -/
def answers (o : Host.Outcome State Fault Refusal) (f : State → Bool) : Bool :=
  match o with
  | .next t => f t
  | .fault _ => false
  | .refused _ => false

/-- RGB keeps alpha 4 (L2). -/
theorem test_rgb_L2 :
    answers (step (withLast 9 ⟨1, 2, 3, 4⟩ [0xFE, 9, 8, 7])) (fun t => decide (t.last = ⟨9, 8, 7, 4⟩ ∧ t.seenAt 32 = ⟨9, 8, 7, 4⟩ ∧ t.pos = 4 ∧ t.count = 1)) = true := by decide

/-- two bytes after the tag (L6). -/
theorem test_rgb_L6_truncated :
    answers (step (fresh 1 [0xFE, 1, 2])) (fun t => decide (t.phase = .error ∧ t.err = .unexpectedInputEnd ∧ t.pos = 3 ∧ t.count = 0)) = true := by decide

/-- RGBA does not read last (L3). -/
theorem test_rgba_L3 :
    answers (step (withLast 9 ⟨9, 9, 9, 9⟩ [0xFF, 1, 2, 3, 4])) (fun t => decide (t.pixels = [⟨1, 2, 3, 4⟩] ∧ t.seenAt 14 = ⟨1, 2, 3, 4⟩ ∧ t.pos = 5)) = true := by decide

/-- source's own example (S3). -/
theorem test_rgba_S3_truncated :
    answers (step (fresh 1 [0xFF])) (fun t => decide (t.phase = .error ∧ t.err = .unexpectedInputEnd ∧ t.pos = 1 ∧ t.count = 0)) = true := by decide

/-- the seed is not in the cache (X3). -/
theorem test_index_X3 :
    answers (step (fresh 9 [0x35])) (fun t => decide (t.last = ⟨0, 0, 0, 0⟩ ∧ t.pixels = [⟨0, 0, 0, 0⟩] ∧ t.seenAt 53 = ⟨0, 0, 0, 0⟩)) = true := by decide

/-- INDEX of an unwritten slot commits ZERO to slot 0 (X5). -/
theorem test_index_X5_evicts_slot_0 :
    answers (exec (.index 5) ((fresh 9 []).commit ⟨0, 0, 0, 64⟩)) (fun t => decide (t.seenAt 0 = ⟨0, 0, 0, 0⟩ ∧ t.last = ⟨0, 0, 0, 0⟩)) = true := by decide

/-- each channel wraps by itself (D5). -/
theorem test_diff_D5 :
    answers (step (withLast 9 ⟨0, 1, 255, 255⟩ [0x43])) (fun t => decide (t.last = ⟨254, 255, 0, 255⟩ ∧ t.seenAt 42 = t.last)) = true := by decide

/-- -1, 0, +1, alpha kept (D4). -/
theorem test_diff_D4 :
    answers (step (withLast 9 ⟨100, 100, 100, 9⟩ [0x5B])) (fun t => decide (t.last = ⟨99, 100, 101, 9⟩)) = true := by decide

/-- dr and db include dg (M7). -/
theorem test_luma_M7 :
    answers (step (withLast 9 ⟨100, 110, 120, 200⟩ [0x9B, 0xF0])) (fun t => decide (t.last = ⟨102, 105, 107, 200⟩ ∧ t.seenAt 4 = t.last ∧ t.pos = 2)) = true := by decide

/-- a trailing FE is data (M8). -/
theorem test_luma_M8_trailing_FE_is_data :
    answers (step (withLast 9 ⟨10, 10, 10, 255⟩ [0x9F, 0xFE])) (fun t => decide (t.last = ⟨16, 9, 15, 255⟩ ∧ t.count = 1)) = true := by decide

/-- three copies, last unchanged (N3). -/
theorem test_run_N3 :
    answers (step (withLast 9 ⟨7, 8, 9, 10⟩ [0xC2])) (fun t => decide (t.pixels = List.replicate 3 ⟨7, 8, 9, 10⟩ ∧ t.seenAt 42 = ⟨7, 8, 9, 10⟩ ∧ t.count = 3 ∧ t.pos = 1)) = true := by decide

/-- a run of 5 clamped to 2 (N6). -/
theorem test_run_N6_clamped :
    answers (step (fresh 2 [0xC4])) (fun t => decide (t.count = 2 ∧ t.phase = .term ∧ t.pixels.length = 2)) = true := by decide

/-- the empty image (E1). -/
theorem test_end_E1 :
    answers (step (fresh 0 [0, 0, 0, 0, 0, 0, 0, 1])) (fun t => decide (t.phase = .done ∧ t.err = .none ∧ t.pos = 8)) = true := by decide

/-- eight bytes compared, not decoded (E10). -/
theorem test_end_E10_rejects :
    answers (step (fresh 0 [0xC0, 0, 0, 0, 0, 0, 0, 0, 1])) (fun t => decide (t.phase = .error ∧ t.err = .badEnding ∧ t.pos = 8 ∧ t.count = 0)) = true := by decide

/-- an empty source in CHUNK is UnexpectedInputEnd (E9). -/
theorem test_chunk_E9_empty_source :
    answers (step (fresh 1 [])) (fun t => decide (t.phase = .error ∧ t.err = .unexpectedInputEnd ∧ t.pos = 0)) = true := by decide

/-- START from IDLE (R110). -/
theorem test_start_from_reset :
    answers (step { State.reset with cmd := some (.start 4 [0xC0]) }) (fun t => decide (t.phase = .chunk ∧ t.size = 4 ∧ t.src = [0xC0] ∧ t.cmd = none)) = true := by decide

/-- START in CHUNK changes nothing (R111). -/
theorem test_start_while_busy_ignored :
    answers (step { fresh 4 [0xC0] with cmd := some (.start 9 []) }) (fun t => decide (t.size = 4 ∧ t.src = [0xC0] ∧ t.phase = .chunk)) = true := by decide

/-- RESET in CHUNK (R112). -/
theorem test_reset_while_busy :
    answers (step { fresh 4 [0xC0] with cmd := some .reset }) (fun t => decide (t.phase = .idle ∧ t.size = 0 ∧ t.last = ⟨0, 0, 0, 255⟩)) = true := by decide

/-- a table word runs as the first instruction after reset. -/
theorem test_step_runs_placed_word :
    answers (step (State.reset.withFetchWord 8 0xC0)) (fun t => decide (t.pixels = [⟨0, 0, 0, 255⟩] ∧ t.pos = 1)) = true := by decide

/-- END runs as the first instruction after reset. -/
theorem test_step_runs_placed_end :
    answers (step (State.reset.withFetchWord 64 0x0100000000000000)) (fun t => decide (t.phase = .done ∧ t.pos = 8)) = true := by decide

/-! ### Handshakes: the byte-granular machine on the same vectors -/

/-- A tag with trailing bytes is only latched (R22). -/
theorem test_input_latches_the_tag :
    (fresh 9 [0x9B, 0xF0]).inputEvent.micro.tagLatch = 0x9B ∧ (fresh 9 [0x9B, 0xF0]).inputEvent.count = 0 := by decide

/-- The trailing byte completes the chunk and the pixel is presented (M7). -/
theorem test_second_byte_completes_luma :
    ((withLast 9 ⟨100, 110, 120, 200⟩ [0x9B, 0xF0]).events [.input, .input]).out = some ⟨102, 105, 107, 200⟩ := by decide

/-- A RUN commits its next pixel only when the sink takes the one before; the clamp ends it (N6). -/
theorem test_run_is_paced_by_the_sink :
    ((fresh 2 [0xC4]).events [.input, .input]).count = 1 ∧ ((fresh 2 [0xC4]).events [.input, .output]).count = 2 ∧
      ((fresh 2 [0xC4]).events [.input, .output]).micro = Micro.rest ∧
      ((fresh 2 [0xC4]).events [.input, .output]).phase = .term := by decide

/-- While a RUN commits its pixels, its tag is the latched one; after the last pixel the micro-state is at rest (R22). -/
theorem test_run_keeps_its_tag_latched :
    ((fresh 9 [0xC2]).events [.input]).micro.tagLatch = 0xC2 ∧ ((fresh 9 [0xC2]).events [.input]).micro.runLeft = 2 ∧
      ((fresh 9 [0xC2]).events [.input, .output]).micro.tagLatch = 0xC2 ∧
      ((fresh 9 [0xC2]).events [.input, .output, .output]).micro = Micro.rest := by decide

/-- `term_cnt` counts the terminator bytes, to 8 (R22, R105). -/
theorem test_terminator_bytes_are_counted :
    ((fresh 0 terminator).events [.input, .input]).micro.termCnt = 2 ∧
      ((fresh 0 terminator).events (List.replicate 8 .input)).micro.termCnt = 8 ∧
      ((fresh 0 terminator).events (List.replicate 8 .input)).phase = .done := by decide

/-- `out_pixel` is r, g, b, a from the top byte down (R38). -/
theorem test_pack : pack ⟨0x11, 0x22, 0x33, 0x44⟩ = 0x11223344 := by decide

/-! ### Witnesses: each statement's hypotheses can be met, at the ends of their ranges -/

theorem witness_DecodeOfEncodeGivesInstruction :
    (Instr.run 61).wf = true ∧ (Instr.endMark terminator).wf = true ∧ terminator.length = 8 ∧
      (Instr.endMark []).wf = true := by decide

theorem witness_DecodedBytesAreTheEncoding :
    decode .chunk [0xFD, 7] = .ok (.run 61, [7]) ∧ decode .term [1, 2] = .ok (.endMark [1, 2], []) := ⟨rfl, rfl⟩

theorem witness_OnlyMissingBytesAreRejected :
    ([1, 2] : List Byte).length < 3 ∧ ¬([1, 2, 3] : List Byte).length < 3 ∧ ¬([] : List Byte).length < 0 := by decide

theorem witness_AssemblerEncodesItsOperands :
    (∃ v ∈ ([-1] : List Int), ¬(0 ≤ v ∧ v ≤ 255)) ∧ (∃ v ∈ ([256] : List Int), ¬(0 ≤ v ∧ v ≤ 255)) :=
  ⟨⟨-1, by decide⟩, ⟨256, by decide⟩⟩

theorem witness_HashNeedsOnlyLowBits :
    (65 : Byte).setWidth 6 = (1 : Byte).setWidth 6 ∧ (255 : Byte).setWidth 6 = (63 : Byte).setWidth 6 := by decide

theorem witness_RgbChunk :
    (fresh 1 [0xFE, 1, 2, 3]).Decoding ∧ (fresh 1 [0xFE, 1, 2, 3]).remaining = [0xFE, 1, 2, 3] ∧
      (fresh 1 [0xFE]).Decoding ∧ (fresh 1 [0xFE, 1, 2]).remaining = 0xFE :: [1, 2] := by decide

theorem witness_RgbaChunk :
    (fresh 1 [0xFF, 1, 2, 3, 4]).Decoding ∧ (fresh 1 [0xFF, 1, 2, 3, 4]).remaining = [0xFF, 1, 2, 3, 4] ∧
      (fresh 1 [0xFF, 1, 2, 3]).remaining = 0xFF :: [1, 2, 3] ∧ (fresh 1 [0xFF]).remaining = 0xFF :: [] := by decide

theorem witness_IndexChunk :
    (fresh 1 [0x3F]).Decoding ∧ (fresh 1 [0x3F]).remaining = 0x3F :: [] ∧ (0x3F : Byte).toNat ≤ 0x3F ∧
      (fresh 1 [0x00]).remaining = 0x00 :: [] := by decide

theorem witness_DiffChunk :
    (fresh 1 [0x40]).Decoding ∧ (fresh 1 [0x40]).remaining = 0x40 :: [] ∧ 0x40 ≤ (0x40 : Byte).toNat ∧
      (fresh 1 [0x7F]).remaining = 0x7F :: [] ∧ (0x7F : Byte).toNat ≤ 0x7F := by decide

theorem witness_LumaChunk :
    (fresh 1 [0x80, 0]).Decoding ∧ (fresh 1 [0x80, 0]).remaining = 0x80 :: 0 :: [] ∧
      (fresh 1 [0xBF, 255]).remaining = 0xBF :: 255 :: [] ∧ 0x80 ≤ (0x80 : Byte).toNat ∧ (0xBF : Byte).toNat ≤ 0xBF ∧
      (fresh 1 [0xA0]).Decoding ∧ (fresh 1 [0xA0]).remaining = [0xA0] := by decide

theorem witness_RunChunk :
    (fresh 62 [0xFD]).Decoding ∧ (fresh 62 [0xFD]).remaining = 0xFD :: [] ∧ (0xFD : Byte).toNat ≤ 0xFD ∧
      0xC0 ≤ (0xC0 : Byte).toNat ∧ (fresh 62 [0xFD]).room = 62 := by decide

/-- A run that fits exactly does not overshoot; one more does. -/
theorem witness_RunChunk_overshoot :
    ¬(fresh 62 []).overshotBy (.run 61) ∧ (fresh 61 []).overshotBy (.run 61) := by
  unfold State.overshotBy; decide

theorem witness_RunWritesAreIdempotent : 0 < 62 := by decide

theorem witness_EndAcceptsTheTerminator :
    (fresh 0 (terminator ++ [9])).phase = .term ∧ (fresh 0 (terminator ++ [9])).cmd = none ∧
      (fresh 0 (terminator ++ [9])).remaining = [0, 0, 0, 0, 0, 0, 0, 1] ++ [9] := by decide

theorem witness_EndRejectsAnythingElse :
    (fresh 0 []).phase = .term ∧ (fresh 0 []).cmd = none ∧ (fresh 0 []).remaining.take 8 ≠ terminator ∧
      (fresh 0 [0, 0, 0, 0, 0, 0, 0]).remaining.take 8 ≠ terminator ∧
      (fresh 0 [0, 0, 0, 0, 0, 0, 0, 0]).remaining.take 8 ≠ terminator ∧ ([] : List Byte) ≠ terminator := by decide

theorem witness_ChunkFrame :
    (Instr.run 3).context = .chunk ∧ exec (.run 3) (fresh 9 []) = .next ((fresh 9 []).commitLast 4) := ⟨rfl, rfl⟩

theorem witness_EndFrame :
    exec (.endMark terminator) (fresh 0 []) = .next { fresh 0 [] with phase := .done } := rfl

theorem witness_DeltaChunksKeepAlpha :
    (∀ i ∈ [Instr.diff 3 3 3, Instr.luma 63 15 15],
      (∃ fr fg fb, i = .diff fr fg fb) ∨ ∃ fg frg fbg, i = .luma fg frg fbg) ∧ (fresh 9 []).phase = .chunk :=
  ⟨by simp, by decide⟩

theorem witness_AlphaChangesOnlyByRgbaAndIndex_change :
    exec (.index 5) (fresh 9 []) = .next ((fresh 9 []).commit ⟨0, 0, 0, 0⟩) ∧
      ((fresh 9 []).commit ⟨0, 0, 0, 0⟩).last.a ≠ (fresh 9 []).last.a := ⟨rfl, by decide⟩

theorem witness_AlphaChangesOnlyByRgbaAndIndex_start :
    LeadsTo [.rgb 1 2 3] (State.start 1 []) ((State.start 1 []).commit ⟨1, 2, 3, 255⟩) :=
  ⟨by decide, _, rfl, rfl⟩

theorem witness_IndexReturnsTheLatestCommit :
    (fresh 9 []).phase = .chunk ∧ ∀ q ∈ [(⟨1, 2, 3, 4⟩ : Pixel)], pixelHash q ≠ pixelHash ⟨0, 0, 0, 64⟩ := by decide

/-- Both cases: the slot read holds its own pixel, and it holds ZERO elsewhere than in slot 0. -/
theorem witness_IndexCommitsWhereTheHashSays :
    ((fresh 9 []).commit ⟨1, 2, 3, 4⟩).phase = .chunk ∧ ((fresh 9 []).commit ⟨1, 2, 3, 4⟩).CacheWf ∧
      ((fresh 9 []).commit ⟨1, 2, 3, 4⟩).seenAt 14 ≠ Config.zero ∧
      ((fresh 9 []).commit ⟨1, 2, 3, 4⟩).seenAt 5 = Config.zero := by decide

theorem witness_StepKeepsCacheHistory :
    (fresh 9 [0xC0]).CacheIsHistory ∧ answers (step (fresh 9 [0xC0])) (fun t => decide (t.count = 1)) = true :=
  ⟨fun i => by simp [fresh], by decide⟩

/-- A step that commits a pixel, and one that takes a command. -/
theorem witness_StepLeavesCacheWellFormed :
    (fresh 9 [0xC0]).CacheIsHistory ∧ (fresh 9 [0xC0]).LastIsFinal ∧
      answers (step (fresh 9 [0xC0])) (fun t => decide (t.pixels ≠ [])) = true ∧
      answers (step { fresh 9 [0xC0] with cmd := some .reset }) (fun t => decide (t.pixels = [])) = true :=
  ⟨fun i => by simp [fresh], by decide⟩

theorem witness_StepRunsTheDecodedInstruction :
    (fresh 9 [0xC0]).cmd = none ∧ (fresh 9 [0xC0]).phase = .chunk ∧ (fresh 0 terminator).phase = .term ∧
      (fresh 9 [0xC0]).remaining = [0xC0] := by decide

theorem witness_StepRunsTheDecodedInstruction_decode :
    decode .chunk (fresh 9 [0xC0]).remaining = .ok (.run 0, []) ∧
      decode .term (fresh 0 terminator).remaining = .ok (.endMark terminator, []) := ⟨rfl, rfl⟩

theorem witness_FetchConsumesExactlyTheInstruction :
    (fresh 9 [0xC0, 7]).fetch = .instr (.run 0) ((fresh 9 [0xC0, 7]).advance 1) := rfl

theorem witness_NoLookAhead :
    (fresh 9 [0xC0, 7]).fetch = .instr (.run 0) ((fresh 9 [0xC0, 7]).advance 1) ∧
      ([0xC0, 8, 9] : List Byte).take 1 = ([0xC0, 7] : List Byte).take 1 ∧ ∀ bytes, Instr.run 0 ≠ .endMark bytes :=
  ⟨rfl, rfl, by simp⟩

theorem witness_PhaseChanges :
    (fresh 9 [0xC0]).cmd = none ∧ answers (step (fresh 9 [0xC0])) (fun t => decide (t.phase = .chunk)) = true ∧
      answers (step (fresh 1 [0xC0])) (fun t => decide (t.phase = .term)) = true := by decide

theorem witness_FinishedDecodeHoldsItsState :
    State.reset.cmd = none ∧ State.reset.busy = false ∧ ((fresh 0 []).raise .badEnding).busy = false ∧
      ({ fresh 0 [] with phase := .done } : State).busy = false := by decide

theorem witness_UnexpectedInputEndExactly :
    (fresh 1 [0xFE, 1, 2]).cmd = none ∧ (fresh 1 [0xFE, 1, 2]).phase ≠ .error ∧ (fresh 1 [0xFE, 1, 2]).phase = .chunk ∧
      (fresh 1 [0xFE, 1, 2]).remaining = 0xFE :: [1, 2] := by decide

theorem witness_BadEndingExactly :
    (fresh 0 []).cmd = none ∧ (fresh 0 []).phase ≠ .error ∧ (fresh 0 []).phase = .term ∧
      (fresh 0 []).remaining.take 8 ≠ [0, 0, 0, 0, 0, 0, 0, 1] := by decide

theorem witness_StepKeepsInvariant_start : (fresh 9 [0xC0]).Inv := by decide

/-- The invariant also holds after a pixel has been committed. -/
theorem witness_StepKeepsInvariant_later : ((fresh 9 [0xC0]).commit ⟨1, 2, 3, 4⟩).Inv := by decide

theorem witness_ResetLeavesTheFreshState :
    ({ fresh 4 [0xC0] with cmd := some .reset } : State).cmd = some .reset := by decide

theorem witness_StartBeginsAFreshDecode :
    ({ State.reset with cmd := some (.start 4 [0xC0]) } : State).cmd = some (.start 4 [0xC0]) ∧
      ({ State.reset with cmd := some (.start 4 [0xC0]) } : State).busy = false ∧
      ({ fresh 1 [] with cmd := some (.start 4 [0xC0]) } : State).busy = true := by decide

/-- Two pasts, one START. -/
theorem witness_StartForgetsThePast :
    ({ (fresh 0 []).raise .badEnding with cmd := some (.start 4 [0xC0]) } : State).busy = false ∧
      ({ State.reset with cmd := some (.start 4 [0xC0]) } : State).busy = false ∧
      ({ (fresh 0 []).raise .badEnding with cmd := some (.start 4 [0xC0]) } : State).cmd = some (.start 4 [0xC0]) := by
  decide

theorem witness_ChunkStepMakesProgress :
    (fresh 9 [0xC0]).Decoding ∧ (fresh 9 [0xC0]).count.toNat < (fresh 9 [0xC0]).size.toNat ∧
      answers (step (fresh 9 [0xC0])) (fun t => decide (t.phase ≠ .error)) = true := by decide

theorem witness_EveryDecodeEnds :
    (fresh 9 [0xC0]).Inv ∧ (fresh 9 [0xC0]).busy = true ∧ (fresh 9 [0xC0]).cmd = none := by decide

theorem witness_DoneOnlyThroughTheTerminator :
    answers (runSteps 2 (State.start 1 (0xC0 :: terminator))) (fun t => decide (t.phase = .done)) = true := by decide

theorem witness_StreamOfChunksDecodes :
    LeadsTo [.run 0] (State.start 1 (0xC0 :: terminator)) ((State.start 1 (0xC0 :: terminator)).commitLast 1) ∧
      ((State.start 1 (0xC0 :: terminator)).commitLast 1).count = 1 ∧ (Instr.run 0).wf = true ∧
      (Instr.run 0).context = .chunk ∧ 0xC0 :: terminator = [Instr.run 0].flatMap encode ++ terminator ++ [] :=
  ⟨⟨by decide, _, rfl, rfl⟩, by decide, by decide, rfl, by decide⟩

theorem witness_OutputWordPacking : (fresh 9 [0xC0]).inputEvent.out = some ⟨0, 0, 0, 255⟩ := by decide

theorem witness_InputSignals :
    (fresh 9 [0xC0]).inReady = true ∧ (fresh 9 [0xC0]).busy = true ∧ (fresh 9 [0xC0]).micro.runLeft = 0 ∧
      (fresh 9 [0xC0]).out = none := by decide

/-- Both outcomes occur: a commit that is presented, and a transfer that only empties the output. -/
theorem witness_EachCommitIsPresentedOnce :
    ((fresh 9 [0xC0]).event .input).pixels = [⟨0, 0, 0, 255⟩] ∧
      (((fresh 9 [0xC0]).event .input).event .output).out = none := by decide

theorem witness_EventsKeepPortInvariant :
    (fresh 9 [0xC4]).PortInv ∧ (fresh 9 [0xC4]).inputEvent.PortInv ∧ (fresh 9 [0xC4]).inputEvent.micro.runLeft = 4 := by
  decide

theorem witness_HandshakesRefineStep :
    (fresh 9 [0xC0]).Inv ∧ (fresh 9 [0xC0]).busy = true ∧ (fresh 9 [0xC0]).cmd = none ∧
      answers (step (fresh 9 [0xC0])) (fun t => decide (t.phase = .chunk)) = true ∧
      answers (step (fresh 1 [0xC0])) (fun t => decide (t.phase = .term)) = true := by decide

theorem witness_HandshakesRefineStep_done :
    (fresh 0 terminator).Inv ∧ (fresh 0 terminator).busy = true ∧ (fresh 0 terminator).cmd = none ∧
      answers (step (fresh 0 terminator)) (fun t => decide (t.phase = .done)) = true := by decide

theorem witness_ScheduleDoesNotMatter :
    (fresh 1 [0xC0]).Inv ∧ (fresh 1 [0xC0]).busy = true ∧
      ((fresh 1 [0xC0]).events [.input, .input, .output, .output, .input]).busy = false := by decide

/-- A chunk awaiting a trailing byte, and a RUN with pixels left. -/
theorem witness_EventsKeepMicroState :
    (fresh 9 [0xFE, 1]).inputEvent.inputEvent.MicroInv ∧ (fresh 9 [0xC4]).inputEvent.MicroInv :=
  ⟨⟨by decide, by decide, ⟨[], by decide⟩, by decide⟩, ⟨by decide, by decide, ⟨[], by decide⟩, by decide⟩⟩

/-- Four terminator bytes counted, the last of them wrong. -/
theorem witness_EventsKeepMicroState_term :
    ((fresh 0 [0, 0, 0, 1]).events (List.replicate 4 .input)).MicroInv :=
  ⟨by decide, by decide, ⟨[0, 0, 0, 1], by decide⟩, by decide⟩

end Sys2Proof.Tests
end

section
/-!
PROOFS. Channel arithmetic (spec 00_scope.md R7, 40_main_loop_and_commit.md R75) and the ranges of the biased fields
(30_encoding.md R56).
-/

namespace Sys2Proof.Machine

open Sys2Proof

theorem add8_toNat (c : Byte) (d : Int) : ((add8 c d).toNat : Int) = (c.toNat + d) % 256 := by
  rw [add8, BitVec.toNat_ofInt]
  exact Int.toNat_of_nonneg (Int.emod_nonneg _ (by decide))

/-- Wrapping after each delta or once after both is the same, as a remainder may be taken early inside a sum. -/
theorem add8_add8 (c : Byte) (d e : Int) : add8 (add8 c d) e = add8 c (d + e) := by
  apply BitVec.eq_of_toNat_eq
  apply Int.ofNat_inj.mp
  calc ((add8 (add8 c d) e).toNat : Int)
      = ((c.toNat + d) % 256 + e) % 256 := by rw [add8_toNat, add8_toNat]
    _ = (c.toNat + (d + e)) % 256 := by rw [Int.emod_add_emod, Int.add_assoc]
    _ = (add8 c (d + e)).toNat := (add8_toNat c (d + e)).symm

theorem diffDelta_range (f : BitVec 2) : -2 ≤ diffDelta f ∧ diffDelta f ≤ 1 := by
  have hf := f.isLt
  unfold diffDelta
  omega

theorem lumaGreen_range (fg : BitVec 6) : -32 ≤ lumaGreen fg ∧ lumaGreen fg ≤ 31 := by
  have hfg := fg.isLt
  unfold lumaGreen
  omega

/-- A red or blue delta lies within its field's own range, -8 to +7, of the green delta. -/
theorem lumaOther_range (f : BitVec 4) (dg : Int) : dg - 8 ≤ lumaOther f dg ∧ lumaOther f dg ≤ dg + 7 := by
  have hf := f.isLt
  unfold lumaOther
  omega

/-- Settles O7: a remainder may be taken early inside a sum, and each field is bounded by its width. -/
theorem channelArithmeticWraps : Obligations.ChannelArithmeticWraps := by
  refine ⟨add8_toNat, add8_add8, diffDelta_range, fun fg f => ?_⟩
  obtain ⟨green_ge, green_le⟩ := lumaGreen_range fg
  obtain ⟨other_ge, other_le⟩ := lumaOther_range f (lumaGreen fg)
  exact ⟨green_ge, green_le, by omega, by omega⟩

end Sys2Proof.Machine
end

section
/-!
PROOFS. What an instruction, a step and a command leave of a state, each said once (spec 40_main_loop_and_commit.md R70, R76,
45_termination_and_start.md R110 to R112). The invariants below are read off these lemmas.
-/

namespace Sys2Proof.Machine

open Sys2Proof

/-! ### Instructions -/

/-- The pixels of a chunk: `m` copies of `p`, no port written. Where pixels are required there is at least one of them and
they are not too many (R100, R102); where a RUN finds none required it leaves the last pixel. -/
structure ChunkPixels (s : State) (p : Pixel) (m : Nat) (t : State) : Prop where
  produced : Produced s p m t
  ports : SamePorts s t
  keepsLast : m = 0 → p = s.last
  fits : s.count.toNat < s.size.toNat → 0 < m ∧ m ≤ s.room

theorem ChunkPixels.of_commit (s : State) (p : Pixel) : ChunkPixels s p 1 (s.commit p) where
  produced := s.commit_produced p
  ports := ⟨rfl, rfl, rfl, rfl, rfl⟩
  keepsLast := by simp
  fits := by unfold State.room; omega

theorem ChunkPixels.of_run (s : State) (fn : BitVec 6) :
    ChunkPixels s s.last (min (runLength fn) s.room) (s.commitLast (min (runLength fn) s.room)) where
  produced := s.commitLast_produced _
  ports := by simp [SamePorts]
  keepsLast _ := rfl
  fits := by unfold State.room runLength; omega

theorem ChunkPixels.loopTest {s t : State} {p : Pixel} {m : Nat} (h : ChunkPixels s p m t) :
    ChunkPixels s p m t.loopTest where
  produced := by simpa [Produced] using h.produced
  ports := by simpa [SamePorts] using h.ports
  keepsLast := h.keepsLast
  fits := h.fits

/-- The decode is over: in DONE after TERM, or in ERROR with its kind. -/
def Ended (s t : State) : Prop :=
  s.phase = .term ∧ t.phase = .done ∧ t.err = s.err ∨ t.phase = .error ∧ t.err ≠ .none

/-- A chunk that answers produces copies of one pixel and writes nothing else. -/
theorem exec_produces {i : Instr} {s t : State} (hi : i.context = .chunk) (h : exec i s = .next t) :
    ∃ p m, ChunkPixels s p m t ∧ t.pos = s.pos ∧ t.phase = s.phase ∧ t.err = s.err := by
  cases i <;> simp only [exec, execRgb, execRgba, execIndex, execDiff, execLuma, execRun, inPhase_eq_next] at h
  case endMark => cases hi
  case run fn =>
    obtain ⟨-, rfl⟩ := h
    exact ⟨_, _, .of_run s fn, by simp, by simp, by simp⟩
  all_goals
    obtain ⟨-, rfl⟩ := h
    exact ⟨_, _, .of_commit s _, rfl, rfl, rfl⟩

/-! ### Steps -/

theorem step_of_cmd {s : State} {c : Command} (h : s.cmd = some c) : step s = .next (s.accept c) := by
  unfold step; rw [h]

/-- What a busy block keeps when it drops a START, and START and RESET establish, holds after every command. -/
theorem State.accept_keeps {P : State → Prop} (s : State) (hdrop : s.busy = true → P { s with cmd := none })
    (hstart : ∀ n src, P (State.start n src)) (hreset : P State.reset) (c : Command) : P (s.accept c) := by
  rcases s.accept_cases c with ⟨n, src, -, hb, heq⟩ | ⟨n, src, -, -, heq⟩ | ⟨-, heq⟩ <;> rw [heq]
  · exact hdrop hb
  · exact hstart n src
  · exact hreset

/-- With no command, a block that is not busy holds its state. -/
theorem step_of_not_busy {s : State} (hc : s.cmd = none) (hb : s.busy = false) : step s = .next s := by
  unfold step State.fetch
  cases hp : s.phase <;> simp_all [State.busy]

/-- The step of a busy block: a chunk, or the end of the decode. -/
theorem step_effect {s t : State} (hc : s.cmd = none) (h : step s = .next t) :
    (s.busy = false ∧ t = s) ∨
      (s.phase = .chunk ∧ ∃ n p m, n ≤ s.remaining.length ∧ ChunkPixels s p m t ∧ ChunkEnded s n t) ∨
      (s.busy = true ∧ SamePixels s t ∧ SamePorts s t ∧ Ended s t ∧
        (t.pos = s.src.length ∨ ∃ n ≤ s.remaining.length, t.pos = s.pos + n)) := by
  rcases step_inversion hc h with hold | ⟨hp, -, rfl⟩ | ⟨hp, i, rest, u, hd, hi, hx, rfl⟩ | ⟨hp, -, rfl⟩ | ⟨hp, -, rfl⟩
  · exact .inl hold
  · exact .inr (.inr ⟨by simp [State.busy, hp], by simp [SamePixels], by simp [SamePorts], by simp [Ended],
      .inl rfl⟩)
  · obtain ⟨p, m, hpx, hpos, -, herr⟩ := exec_produces hi hx
    obtain ⟨-, huphase⟩ := exec_chunk_phase hi hx
    obtain ⟨hlen, -⟩ := decodeChunk_consumes hd
    exact .inr (.inl ⟨hp, i.length, p, m, hlen, { hpx.loopTest with },
      ⟨by simpa using hpos, by simpa using herr, by simp [huphase]⟩⟩)
  · exact .inr (.inr ⟨by simp [State.busy, hp], by simp [SamePixels], by simp [SamePorts],
      by simp [Ended, hp], .inr ⟨_, Nat.min_le_right _ _, rfl⟩⟩)
  · exact .inr (.inr ⟨by simp [State.busy, hp], by simp [SamePixels], by simp [SamePorts],
      by simp [Ended], .inr ⟨_, Nat.min_le_right _ _, rfl⟩⟩)

/-- A step without a command writes no port. -/
theorem step_samePorts {s t : State} (hc : s.cmd = none) (h : step s = .next t) : SamePorts s t := by
  rcases step_effect hc h with ⟨-, rfl⟩ | ⟨-, n, p, m, -, hchunk, -⟩ | ⟨-, -, hports, -⟩
  · exact ⟨rfl, rfl, rfl, rfl, rfl⟩
  · exact hchunk.ports
  · exact hports

/-- A fetched instruction is in its phase, so every step answers a next state. -/
theorem step_answers (s : State) : ∃ t, step s = .next t := by
  rcases step_cases s with ⟨c, -, h⟩ | ⟨-, -, h⟩ | ⟨-, -, h⟩ | ⟨i, s', -, hf, h⟩
  · exact ⟨_, h⟩
  · exact ⟨_, h⟩
  · exact ⟨_, h⟩
  · obtain ⟨c, rest, hctx, hd, rfl⟩ := State.fetch_eq_instr hf
    obtain ⟨u, hu⟩ := exec_answers (i := i) (s := s.advance i.length) (by rw [decode_context hd]; exact hctx)
    exact ⟨_, h.trans (settle_eq_next.2 ⟨u, hu, rfl⟩)⟩

/-- Settles O19: a chunk's effect is `m` copies of the pixel it leaves in `last`. -/
theorem chunkFrame : Obligations.ChunkFrame := by
  intro i s t hi h
  obtain ⟨p, m, hchunk, hpos, hphase, herr⟩ := exec_produces hi h
  obtain ⟨hpx, -, rfl, hseen⟩ := hchunk.produced
  exact ⟨hchunk.ports, hpos, hphase, herr, ⟨_, hpx⟩, fun j hj => by simp [hseen, hj]⟩

/-! ### Alpha -/

/-- RGB, DIFF, LUMA and RUN copy alpha from the last pixel; END writes no pixel (R81). -/
theorem exec_alpha {i : Instr} {s t : State} (h : exec i s = .next t) (hrgba : ∀ r g b a, i ≠ .rgba r g b a)
    (hindex : ∀ idx, i ≠ .index idx) : t.last.a = s.last.a := by
  cases i <;> simp only [exec, execRgb, execDiff, execLuma, execRun, execEnd, inPhase_eq_next] at h
  case rgba r g b a => exact absurd rfl (hrgba r g b a)
  case index idx => exact absurd rfl (hindex idx)
  case endMark bytes => rw [h.2]; split <;> rfl
  all_goals simp [h.2, addDeltas]

theorem LeadsTo.alpha {is : List Instr} {s t : State} (h : LeadsTo is s t)
    (his : ∀ i ∈ is, (∀ r g b a, i ≠ .rgba r g b a) ∧ ∀ idx, i ≠ .index idx) : t.last.a = s.last.a := by
  induction is generalizing s with
  | nil => rw [show t = s from h]
  | cons i is ih =>
    obtain ⟨-, u, hx, hrest⟩ := h
    obtain ⟨hi, his⟩ := List.forall_mem_cons.1 his
    exact (ih hrest his).trans (exec_alpha hx hi.1 hi.2)

/-- Settles O23: by the instruction, and along the chunks from START's seed, whose alpha is 255. -/
theorem alphaChangesOnlyByRgbaAndIndex : Obligations.AlphaChangesOnlyByRgbaAndIndex := by
  refine ⟨fun i s t h hne => ?_, fun is size src t h his => h.alpha his⟩
  by_contra hother
  push Not at hother
  exact hne (exec_alpha h hother.1 hother.2)

/-! ### Control -/

/-- Settles O33: the phases of the three things a step can do. -/
theorem phaseChanges : Obligations.PhaseChanges := by
  intro s t hc h
  rcases step_effect hc h with ⟨hb, rfl⟩ | ⟨hp, n, p, m, -, -, -, -, hphase⟩ | ⟨hb, -, -, hend, -⟩
  · cases hp : t.phase <;> simp [State.busy, hp] at hb ⊢
  · rw [hp]; exact .inr hphase
  · cases hp : s.phase <;> simp [State.busy, hp] at hb ⊢
    case chunk => rcases hend with ⟨hterm, -⟩ | ⟨herror, -⟩ <;> simp_all
    case term => rcases hend with ⟨-, hdone, -⟩ | ⟨herror, -⟩ <;> simp [*]

/-- Settles O34: each of the steps holds the state. -/
theorem finishedDecodeHoldsItsState : Obligations.FinishedDecodeHoldsItsState := by
  intro s k hc hb
  induction k with
  | zero => rfl
  | succ k ih => rw [runSteps, step_of_not_busy hc hb]; exact ih

end Sys2Proof.Machine
end

section
/-!
PROOFS. The cache is a function of the output (spec 10_state.md R12, R24 (d) to (f), 42_index_chunk.md R93).
-/

namespace Sys2Proof.Machine

open Sys2Proof

theorem State.CacheIsHistory.of_same {s t : State} (h : s.CacheIsHistory) (hseen : t.seen = s.seen)
    (hpx : t.pixels = s.pixels) : t.CacheIsHistory := fun i => by
  rw [State.seenAt_congr hseen, hpx, h i]

/-- Copies of `p` go to the end of the history of one slot, and that slot is the one written. -/
theorem State.CacheIsHistory.produced {s t : State} {p : Pixel} {m : Nat} (h : s.CacheIsHistory)
    (hp : Produced s p m t) : t.CacheIsHistory := by
  obtain ⟨hpx, -, -, hseen⟩ := hp
  intro i
  rw [hseen, hpx, List.filter_append, List.filter_replicate, h i]
  by_cases hi : i = pixelHash p
  · cases m <;> simp [hi, List.replicate_succ']
  · simp [hi, Ne.symm hi]

theorem State.start_cacheIsHistory (n : Count) (src : List Byte) : (State.start n src).CacheIsHistory := fun i => by simp

/-- Settles O26: no pixel was output and every slot holds ZERO. -/
theorem cacheHistoryAtReset : Obligations.CacheHistoryAtReset := fun i => by simp

/-- Settles O27: a command leaves the cache alone or clears it with the output, a chunk writes the slot of the pixel it
produces, and the end of a decode writes nothing. -/
theorem stepKeepsCacheHistory : Obligations.StepKeepsCacheHistory := by
  intro s t h hst
  cases hc : s.cmd with
  | some c =>
    rw [step_of_cmd hc] at hst
    cases hst
    exact s.accept_keeps (P := State.CacheIsHistory) (fun _ => h.of_same rfl rfl) State.start_cacheIsHistory
      cacheHistoryAtReset c
  | none =>
    rcases step_effect hc hst with ⟨-, rfl⟩ | ⟨-, n, p, m, -, hchunk, -⟩ | ⟨-, ⟨hpx, -, -, hseen⟩, -⟩
    · exact h
    · exact h.produced hchunk.produced
    · exact h.of_same hseen hpx

/-- The last of the pixels that hash to a slot hashes to it. -/
theorem State.CacheIsHistory.cacheWf {s : State} (h : s.CacheIsHistory) : s.CacheWf := by
  intro i
  rw [h i]
  cases hl : (s.pixels.filter fun p => pixelHash p = i).getLast? with
  | none => exact .inl rfl
  | some p => exact .inr (by simpa using List.of_mem_filter (List.mem_of_getLast? hl))

/-- The final pixel is the last of those that hash to its slot. -/
theorem State.CacheIsHistory.lastIsCached {s : State} (h : s.CacheIsHistory) (hlast : s.LastIsFinal) :
    s.LastIsCached := by
  intro hne
  obtain ⟨ps, p, hps⟩ := List.eq_nil_or_concat' s.pixels |>.resolve_left hne
  have hp : s.last = p := by simpa [State.LastIsFinal, hps] using hlast
  simp [h _, hp, hps]

theorem State.LastIsFinal.chunk {s t : State} {p : Pixel} {m : Nat} (h : s.LastIsFinal) (hc : ChunkPixels s p m t) :
    t.LastIsFinal := by
  obtain ⟨hpx, -, hl, -⟩ := hc.produced
  cases m with
  | zero => simpa [State.LastIsFinal, hl, hpx, hc.keepsLast rfl] using h
  | succ m => simp [State.LastIsFinal, hl, hpx, List.replicate_succ']

theorem step_keeps_lastIsFinal {s t : State} (h : s.LastIsFinal) (hst : step s = .next t) : t.LastIsFinal := by
  cases hc : s.cmd with
  | some c =>
    rw [step_of_cmd hc] at hst
    cases hst
    exact s.accept_keeps (P := State.LastIsFinal) (fun _ => h) (fun _ _ => rfl) rfl c
  | none =>
    rcases step_effect hc hst with ⟨-, rfl⟩ | ⟨-, n, p, m, -, hchunk, -⟩ | ⟨-, ⟨hpx, -, hl, -⟩, -⟩
    · exact h
    · exact h.chunk hchunk
    · simpa [State.LastIsFinal, hl, hpx] using h

/-- Settles O28: what the cache is as a function of the output gives R24 (e) and (f). -/
theorem stepLeavesCacheWellFormed : Obligations.StepLeavesCacheWellFormed := by
  intro s t hcache hlast hst
  have hcache' := stepKeepsCacheHistory s t hcache hst
  have hlast' := step_keeps_lastIsFinal hlast hst
  exact ⟨hlast', hcache'.cacheWf, hcache'.lastIsCached hlast'⟩

end Sys2Proof.Machine
end
section
/-!
PROOFS. RESET, START and the status ports (spec 10_state.md R17 to R20, R25, R26, 45_termination_and_start.md R110 to R112).
-/

namespace Sys2Proof.Machine

open Sys2Proof

/-- Settles O39: the fields of the reset state; the seed's slot holds ZERO, which is not the seed. -/
theorem resetLeavesTheFreshState : Obligations.ResetLeavesTheFreshState :=
  ⟨rfl, State.reset_seenAt, rfl, rfl, rfl, rfl, rfl, rfl, rfl, rfl, rfl, by simp [Config.zero, Config.seed],
    fun _ h => step_of_cmd h⟩

theorem accept_start_of_busy {s : State} (n : Count) (src : List Byte) (h : s.busy = true) :
    s.accept (.start n src) = { s with cmd := none } := by simp [State.accept, h]

theorem accept_start_of_not_busy {s : State} (n : Count) (src : List Byte) (h : s.busy = false) :
    s.accept (.start n src) = State.start n src := by simp [State.accept, h]

/-- Settles O40: START is dropped while the block is busy and else leaves `State.start`. -/
theorem startBeginsAFreshDecode : Obligations.StartBeginsAFreshDecode := by
  intro s n src hc
  rw [step_of_cmd hc]
  by_cases hb : s.busy = true
  · rw [if_pos hb, accept_start_of_busy n src hb]
  · rw [if_neg hb, accept_start_of_not_busy n src (by simpa using hb)]
    exact ⟨_, rfl, rfl, rfl, State.start_seenAt n src, rfl, rfl, rfl, rfl, rfl, rfl, rfl, rfl, rfl⟩

/-- Settles O41: the first step of both blocks leads to the same `State.start`. -/
theorem startForgetsThePast : Obligations.StartForgetsThePast := by
  intro s s' n src k hb hb' hc hc'
  simp only [runSteps, step_of_cmd hc, step_of_cmd hc', accept_start_of_not_busy n src hb,
    accept_start_of_not_busy n src hb']

/-- Settles O46: each port by the definition of the code it carries. -/
theorem statusPorts : Obligations.StatusPorts := by
  intro s
  refine ⟨rfl, rfl, ?_, ?_, ?_, ?_, ?_⟩
  · cases hp : s.phase <;> simp [State.status, Phase.code, hp]
  · cases he : s.err <;> simp [State.status, ErrorKind.code, he]
  all_goals simp [State.status, State.busy]

end Sys2Proof.Machine
end

section
/-!
PROOFS. The invariant of R24, with R16, R17, R18 and R22, and what it says of whole decodes (spec 10_state.md,
45_termination_and_start.md R105 to R108).
-/

namespace Sys2Proof.Machine

open Sys2Proof

/-! ### The pixel invariant -/

theorem State.start_phase_cases (n : Count) (src : List Byte) :
    n = 0 ∧ (State.start n src).phase = .term ∨ 0 < n.toNat ∧ (State.start n src).phase = .chunk := by
  by_cases hn : n = 0
  · exact .inl ⟨hn, by rw [State.start_phase, if_pos hn]⟩
  · exact .inr ⟨Nat.pos_of_ne_zero fun h => hn (BitVec.eq_of_toNat_eq h), by rw [State.start_phase, if_neg hn]⟩

theorem State.start_pixelInv (n : Count) (src : List Byte) : (State.start n src).PixelInv := by
  have hphase := State.start_phase_cases n src
  refine ⟨rfl, Nat.zero_le _, ?_, rfl, fun i => .inl (by simp), fun h => absurd rfl h, ?_, Nat.zero_le _, ?_⟩
  · rw [State.PhaseMatchesCount, State.start_count, State.start_size]
    rcases hphase with ⟨rfl, hp⟩ | ⟨hpos, hp⟩ <;> rw [hp] <;> simp [*]
  · rw [State.ErrMatchesPhase]
    rcases hphase with ⟨-, hp⟩ | ⟨-, hp⟩ <;> rw [hp] <;> simp
  · rw [State.IdleIsFresh]
    rcases hphase with ⟨-, hp⟩ | ⟨-, hp⟩ <;> rw [hp] <;> simp

theorem State.reset_pixelInv : State.reset.PixelInv := by
  refine ⟨rfl, Nat.le_refl _, ?_, rfl, fun i => .inl (by simp), fun h => absurd rfl h, ?_, Nat.le_refl _, fun _ => rfl⟩
  · simp [State.PhaseMatchesCount]
  · simp [State.ErrMatchesPhase]

theorem State.PixelInv.cursorInSource {s : State} (h : s.PixelInv) : s.CursorInSource := by
  obtain ⟨-, -, -, -, -, -, -, hcur, -⟩ := h
  exact hcur

/-- The command presented is no part of the invariant. -/
theorem State.PixelInv.dropCmd {s : State} (h : s.PixelInv) : State.PixelInv { s with cmd := none } := h

/-- A busy block whose pixels stay, and whose control stays or ends, keeps the pixel invariant. -/
theorem State.PixelInv.samePixels {s t : State} (h : s.PixelInv) (hb : s.busy = true) (hpx : SamePixels s t)
    (hsize : t.size = s.size) (hctl : t.phase = s.phase ∧ t.err = s.err ∨ Ended s t) (hcur : t.CursorInSource) :
    t.PixelInv := by
  obtain ⟨hlen, hle, hphase, hlast, hwf, hcached, herr, -, -⟩ := h
  obtain ⟨hp, hc, hl, hs⟩ := hpx
  have hseen := State.seenAt_congr hs
  refine ⟨by rwa [State.CountIsLength, hc, hp], by rwa [State.CountInBounds, hc, hsize], ?_,
    by rwa [State.LastIsFinal, hl, hp], fun i => by rw [hseen]; exact hwf i,
    by rwa [State.LastIsCached, hp, hl, hseen], ?_, hcur, ?_⟩
  · rw [State.PhaseMatchesCount, hc, hsize]
    rcases hctl with ⟨hph, -⟩ | ⟨hterm, hdone, -⟩ | ⟨herror, -⟩
    · rwa [hph]
    · simp [hdone, hphase.2 (.inl hterm)]
    · simp [herror]
  · rw [State.ErrMatchesPhase] at *
    rcases hctl with ⟨hph, he⟩ | ⟨hterm, hdone, he⟩ | ⟨herror, he⟩
    · rwa [hph, he]
    · simpa [hdone, he, hterm] using herr
    · simp [herror, he]
  · intro hidle
    rcases hctl with ⟨hph, -⟩ | ⟨-, hdone, -⟩ | ⟨herror, -⟩
    · simp [State.busy, ← hph, hidle] at hb
    · simp [hdone] at hidle
    · simp [herror] at hidle

/-- A chunk that finds pixels required keeps the pixel invariant: it produces some, and not too many. -/
theorem State.PixelInv.chunk {s t : State} {n m : Nat} {p : Pixel} (h : s.PixelInv) (hp : s.phase = .chunk)
    (hchunk : ChunkPixels s p m t) (hend : ChunkEnded s n t) (hcur : t.CursorInSource) : t.PixelInv := by
  obtain ⟨hlen, -, hphase, hlast, hwf, -, herr, -, -⟩ := h
  obtain ⟨hpx, hcount, hl, hseen⟩ := hchunk.produced
  obtain ⟨hsize, -⟩ := hchunk.ports
  obtain ⟨-, herr', hphase'⟩ := hend
  obtain ⟨hpos, hroom⟩ := hchunk.fits (hphase.1 hp)
  have hsum : t.count.toNat = s.count.toNat + m := by
    have := s.size.isLt
    unfold State.room at hroom
    rw [hcount, BitVec.toNat_add, BitVec.toNat_ofNat]
    omega
  have hle : t.count.toNat ≤ t.size.toNat := by rw [hsum, hsize]; unfold State.room at hroom; omega
  refine ⟨by simp [State.CountIsLength, hsum, hpx, hlen], hle, ?_, hlast.chunk hchunk, fun i => ?_, fun _ => ?_, ?_,
    hcur, fun hidle => ?_⟩
  · rw [State.PhaseMatchesCount, hphase']
    split
    next heq => simp [heq]
    next hne =>
      have : t.count.toNat ≠ t.size.toNat := fun h => hne (BitVec.eq_of_toNat_eq h)
      simp only [reduceCtorEq, or_self, false_implies, and_true, true_implies]
      omega
  · rw [hseen]
    split
    next hi => exact .inr hi.1.symm
    next => exact hwf i
  · rw [hseen, hl, if_pos ⟨rfl, hpos⟩]
  · rw [State.ErrMatchesPhase, herr', show s.err = .none ↔ s.phase ≠ .error from herr, hp, hphase']; split <;> simp
  · rw [hphase'] at hidle; split at hidle <;> cases hidle

/-! ### The chunk-granular invariant -/

theorem State.start_inv (n : Count) (src : List Byte) : (State.start n src).Inv := ⟨State.start_pixelInv n src, rfl, rfl⟩

/-- Settles O37: nothing was output, every slot holds ZERO, and the phase is IDLE. -/
theorem invariantAtReset : Obligations.InvariantAtReset := ⟨State.reset_pixelInv, rfl, rfl⟩

theorem State.AtRest.samePorts {s t : State} (h : s.AtRest) (hports : SamePorts s t) : t.AtRest := by
  obtain ⟨-, -, -, hm, ho⟩ := hports
  rwa [State.AtRest, hm, ho]

theorem cursorInSource_of_consumed {s t : State} {n : Nat} (h : s.CursorInSource) (hn : n ≤ s.remaining.length)
    (hpos : t.pos = s.pos + n) (hsrc : t.src = s.src) : t.CursorInSource := by
  rw [State.remaining, List.length_drop] at hn
  rw [State.CursorInSource] at *
  rw [hpos, hsrc]
  omega

/-- Settles O38: a command keeps or establishes the invariant, a chunk produces no more pixels than are required, and the
end of a decode writes none. -/
theorem stepKeepsInvariant : Obligations.StepKeepsInvariant := by
  rintro s t ⟨hinv, hrest⟩ hst
  cases hc : s.cmd with
  | some c =>
    rw [step_of_cmd hc] at hst
    cases hst
    exact s.accept_keeps (P := State.Inv) (fun _ => ⟨hinv.dropCmd, hrest⟩) State.start_inv invariantAtReset c
  | none =>
    have hcur := hinv.cursorInSource
    rcases step_effect hc hst with ⟨-, rfl⟩ | ⟨hp, n, p, m, hn, hchunk, hend⟩ | ⟨hb, hpx, hports, hend, hpos⟩
    · exact ⟨hinv, hrest⟩
    · obtain ⟨-, hsrc, -⟩ := hchunk.ports
      exact ⟨hinv.chunk hp hchunk hend (cursorInSource_of_consumed hcur hn hend.1 hsrc), hrest.samePorts hchunk.ports⟩
    · obtain ⟨hsize, hsrc, -⟩ := id hports
      refine ⟨hinv.samePixels hb hpx hsize (.inr hend) ?_, hrest.samePorts hports⟩
      rcases hpos with hpos | ⟨n, hn, hpos⟩
      · rw [State.CursorInSource, hpos, hsrc]
      · exact cursorInSource_of_consumed hcur hn hpos hsrc

/-! ### Whole decodes -/

/-- What every step keeps holds after any number of them. -/
theorem runSteps_keeps {P : State → Prop} (hstep : ∀ s t, P s → step s = .next t → P t) {k : Nat} {s t : State}
    (h : P s) (hrun : runSteps k s = .next t) : P t := by
  induction k generalizing s with
  | zero => cases hrun; exact h
  | succ k ih =>
    rw [runSteps] at hrun
    split at hrun
    next u hu => exact ih (hstep s u h hu) hrun
    all_goals cases hrun

/-- A decode of `size` pixels from `src`, and once it is in DONE the terminator stands before its cursor. -/
structure Decodes (size : Count) (src : List Byte) (s : State) : Prop where
  inv : s.Inv
  size_eq : s.size = size
  src_eq : s.src = src
  noCommand : s.cmd = none
  terminated : s.phase = .done → 8 ≤ s.pos ∧ (src.drop (s.pos - 8)).take 8 = terminator

theorem Decodes.of_start (size : Count) (src : List Byte) : Decodes size src (State.start size src) where
  inv := State.start_inv size src
  size_eq := rfl
  src_eq := rfl
  noCommand := rfl
  terminated h := by rcases State.start_phase_cases size src with ⟨-, hp⟩ | ⟨-, hp⟩ <;> rw [hp] at h <;> cases h

theorem length_of_take_eq_terminator {bs : List Byte} (h : bs.take 8 = terminator) : 8 ≤ bs.length := by
  have hlen : min 8 bs.length = 8 := by rw [← List.length_take, h]; rfl
  omega

/-- Of all steps only the accepted terminator leads a busy block to DONE. -/
theorem step_to_done {s t : State} (hc : s.cmd = none) (h : step s = .next t) (hb : s.busy = true)
    (hdone : t.phase = .done) : s.remaining.take 8 = terminator ∧ t.pos = s.pos + 8 := by
  rcases step_inversion hc h with ⟨hb', -⟩ | ⟨-, -, rfl⟩ | ⟨-, i, rest, u, -, hi, hx, rfl⟩ | ⟨-, hterm, rfl⟩ |
    ⟨-, -, rfl⟩
  · simp [hb] at hb'
  · cases hdone
  · rw [State.loopTest_phase, (exec_chunk_phase hi hx).2] at hdone
    split at hdone <;> cases hdone
  · exact ⟨hterm, by simp [Nat.min_eq_left (length_of_take_eq_terminator hterm)]⟩
  · cases hdone

theorem Decodes.step {size : Count} {src : List Byte} {s t : State} (h : Decodes size src s)
    (hst : step s = .next t) : Decodes size src t := by
  obtain ⟨hinv, hsize, hsrc, hc, hterm⟩ := h
  cases hb : s.busy with
  | false => rw [step_of_not_busy hc hb] at hst; cases hst; exact ⟨hinv, hsize, hsrc, hc, hterm⟩
  | true =>
    obtain ⟨hsize', hsrc', hc', -⟩ := step_samePorts hc hst
    refine ⟨stepKeepsInvariant s t hinv hst, hsize'.trans hsize, hsrc'.trans hsrc, hc'.trans hc, fun hdone => ?_⟩
    obtain ⟨hbytes, hpos⟩ := step_to_done hc hst hb hdone
    rw [hpos, Nat.add_sub_cancel, ← hsrc]
    exact ⟨Nat.le_add_left 8 _, hbytes⟩

/-- Settles O44: `Decodes` holds along the run, and in DONE the invariant gives `count = size`. -/
theorem doneOnlyThroughTheTerminator : Obligations.DoneOnlyThroughTheTerminator := by
  intro k size src t hrun hdone
  obtain ⟨⟨⟨hlen, -, hphase, -⟩, -⟩, hsize, hsrc, -, hterm⟩ :=
    runSteps_keeps (P := Decodes size src) (fun _ _ => Decodes.step) (Decodes.of_start size src) hrun
  obtain ⟨hpos, hbytes⟩ := hterm hdone
  exact ⟨by rw [← hlen, hphase.2 (.inr hdone), hsize], by simp [State.result, hdone], hpos, hsrc, hbytes⟩

end Sys2Proof.Machine
end

section
/-!
PROOFS. The operations of the byte-granular machine, each said once (spec 10_state.md R22, 20_memory.md R34, R38,
44_run_chunk.md R102, 45_termination_and_start.md R105).
-/

namespace Sys2Proof.Machine

open Sys2Proof

/-! ### Another micro-state -/

/-- `s` with the micro-state `m`. -/
def State.withMicro (s : State) (m : Micro) : State := { s with micro := m }

@[simp] theorem State.withMicro_micro (s : State) (m : Micro) : (s.withMicro m).micro = m := rfl
@[simp] theorem State.withMicro_last (s : State) (m : Micro) : (s.withMicro m).last = s.last := rfl
@[simp] theorem State.withMicro_seen (s : State) (m : Micro) : (s.withMicro m).seen = s.seen := rfl
@[simp] theorem State.withMicro_pixels (s : State) (m : Micro) : (s.withMicro m).pixels = s.pixels := rfl
@[simp] theorem State.withMicro_size (s : State) (m : Micro) : (s.withMicro m).size = s.size := rfl
@[simp] theorem State.withMicro_count (s : State) (m : Micro) : (s.withMicro m).count = s.count := rfl
@[simp] theorem State.withMicro_pos (s : State) (m : Micro) : (s.withMicro m).pos = s.pos := rfl
@[simp] theorem State.withMicro_phase (s : State) (m : Micro) : (s.withMicro m).phase = s.phase := rfl
@[simp] theorem State.withMicro_err (s : State) (m : Micro) : (s.withMicro m).err = s.err := rfl
@[simp] theorem State.withMicro_out (s : State) (m : Micro) : (s.withMicro m).out = s.out := rfl
@[simp] theorem State.withMicro_src (s : State) (m : Micro) : (s.withMicro m).src = s.src := rfl
@[simp] theorem State.withMicro_cmd (s : State) (m : Micro) : (s.withMicro m).cmd = s.cmd := rfl
@[simp] theorem State.withMicro_remaining (s : State) (m : Micro) : (s.withMicro m).remaining = s.remaining := rfl
@[simp] theorem State.withMicro_consumed (s : State) (m : Micro) : (s.withMicro m).consumed = s.consumed := rfl
@[simp] theorem State.withMicro_withMicro (s : State) (m n : Micro) : (s.withMicro m).withMicro n = s.withMicro n := rfl

theorem State.withMicro_self {s : State} {m : Micro} (h : s.micro = m) : s.withMicro m = s := by subst h; rfl

theorem State.withMicro_advance (s : State) (m : Micro) (n : Nat) :
    (s.withMicro m).advance n = (s.advance n).withMicro m := rfl

theorem State.withMicro_commit (s : State) (m : Micro) (p : Pixel) :
    (s.withMicro m).commit p = (s.commit p).withMicro m := rfl

theorem State.withMicro_commitLast (s : State) (m : Micro) (k : Nat) :
    (s.withMicro m).commitLast k = (s.commitLast k).withMicro m := by
  induction k generalizing s with
  | zero => rfl
  | succ k ih => exact ih (s.commit s.last)

theorem State.withMicro_loopTest (s : State) (m : Micro) : (s.withMicro m).loopTest = s.loopTest.withMicro m :=
  (apply_ite (State.withMicro · m) (s.phase = .chunk ∧ s.count = s.size) { s with phase := .term } s).symm

theorem State.withMicro_present (s : State) (m : Micro) : (s.withMicro m).present = s.present.withMicro m :=
  State.withMicro_loopTest { s with out := some s.last } m

/-! ### The bytes of the chunk in progress -/

/-- The bytes received of the chunk in progress: its tag, then its trailing bytes (R22). -/
def Micro.received (m : Micro) : List Byte :=
  if m.tagLatch = 0 then [] else m.tagLatch :: m.opnd.toList.take m.haveCnt.toNat

/-- One more byte of the chunk latched. -/
def Micro.latchByte (m : Micro) (b : Byte) : Micro :=
  if m.tagLatch = 0 then { m with tagLatch := b }
  else { m with opnd := m.opnd.setIfInBounds m.haveCnt.toNat b, haveCnt := m.haveCnt + 1 }

theorem Micro.received_of_no_tag {m : Micro} (h : m.tagLatch = 0) : m.received = [] := if_pos h

theorem Micro.received_of_tag {m : Micro} (h : m.tagLatch ≠ 0) :
    m.received = m.tagLatch :: m.opnd.toList.take m.haveCnt.toNat := if_neg h

@[simp] theorem Micro.received_rest : Micro.rest.received = [] := rfl

@[simp] theorem Micro.latchByte_runLeft (m : Micro) (b : Byte) : (m.latchByte b).runLeft = m.runLeft := by
  unfold Micro.latchByte; split <;> rfl
@[simp] theorem Micro.latchByte_termCnt (m : Micro) (b : Byte) : (m.latchByte b).termCnt = m.termCnt := by
  unfold Micro.latchByte; split <;> rfl
@[simp] theorem Micro.latchByte_termOk (m : Micro) (b : Byte) : (m.latchByte b).termOk = m.termOk := by
  unfold Micro.latchByte; split <;> rfl

/-- Trailing bytes are missing of a chunk that is rejected. -/
theorem length_lt_trailing_of_error {tag : Byte} {rest : List Byte} {e : DecodeError}
    (h : decodeChunk (tag :: rest) = .error e) : rest.length < (classify tag).trailing := by
  rcases decodeChunk_cons tag rest with ⟨i, r, hok, -⟩ | ⟨-, hlt⟩
  · rw [h] at hok; cases hok
  · exact hlt

theorem trailing_le_four (op : Opcode) : op.trailing ≤ 4 := by cases op <;> decide

/-- A chunk still rejected with one byte more had room for that byte: the latch then holds exactly the bytes received. -/
theorem Micro.received_latchByte {m : Micro} {b : Byte} {e : DecodeError} (hm : m.tagLatch = 0 → m.haveCnt = 0)
    (he : decodeChunk (m.received ++ [b]) = .error e) :
    (m.latchByte b).received = m.received ++ [b] ∧ (m.latchByte b).tagLatch ≠ 0 ∧
      (m.latchByte b).haveCnt.toNat < (classify (m.latchByte b).tagLatch).trailing := by
  by_cases htag : m.tagLatch = 0
  · rw [Micro.received_of_no_tag htag] at he ⊢
    have hb : b ≠ 0 := by rintro rfl; cases he
    have hlt := length_lt_trailing_of_error he
    simp only [Micro.latchByte, if_pos htag, Micro.received, if_neg hb, hm htag]
    exact ⟨rfl, hb, hlt⟩
  · rw [Micro.received_of_tag htag] at he ⊢
    have hlt := length_lt_trailing_of_error (rest := _ ++ [b]) he
    have hle := trailing_le_four (classify m.tagLatch)
    rw [List.length_append, List.length_take, Vector.length_toList, List.length_singleton] at hlt
    have hcnt : (m.haveCnt + 1).toNat = m.haveCnt.toNat + 1 :=
      BitVec.toNat_add_of_lt (show m.haveCnt.toNat + 1 < 8 by omega)
    have hopnd : (m.opnd.toList.set m.haveCnt.toNat b).take (m.haveCnt.toNat + 1) =
        m.opnd.toList.take m.haveCnt.toNat ++ [b] := by
      rw [List.take_add_one, List.take_set_of_le (Nat.le_refl _), List.getElem?_set_self (by simp; omega)]
      rfl
    simp only [Micro.latchByte, Micro.received, if_neg htag, hcnt, Vector.toList_setIfInBounds, hopnd]
    exact ⟨rfl, htag, by omega⟩

/-! ### Commits on the output port -/

/-- A repetition of a RUN commits the last pixel and presents it; the RUN goes on while pixels are left and required. -/
theorem State.runOne_presents (s : State) :
    ∃ m, s.runOne = (s.commit s.last).present.withMicro m ∧
      (m = Micro.rest ∧ (s.micro.runLeft = 1 ∨ s.count + 1 = s.size) ∨
        s.micro.runLeft ≠ 1 ∧ s.count + 1 ≠ s.size ∧ m = { s.micro with runLeft := s.micro.runLeft - 1 }) := by
  refine ⟨_, s.runOne_eq, ?_⟩
  split
  next h => exact .inl ⟨rfl, h⟩
  next h => push Not at h; exact .inr ⟨h.1, h.2, rfl⟩

/-- A complete chunk commits one pixel and presents it; the micro-state is at rest, or a RUN has begun. -/
theorem State.complete_presents {s : State} {tag : Byte} {i : Instr} (hp : s.phase = .chunk) (hi : i.context = .chunk) :
    ∃ p m, s.complete tag i = (s.commit p).present.withMicro m ∧
      (m = Micro.rest ∨ ∃ fn, i = .run fn ∧ BitVec.ofNat 6 (runLength fn) ≠ 1 ∧ s.count + 1 ≠ s.size ∧
        m = { Micro.rest with tagLatch := tag, runLeft := BitVec.ofNat 6 (runLength fn) - 1 }) := by
  rcases State.complete_cases (tag := tag) hp hi with ⟨p, -, heq⟩ | ⟨fn, rfl, heq⟩
  · exact ⟨p, Micro.rest, heq.trans (State.withMicro_present (s.commit p) Micro.rest), .inl rfl⟩
  · obtain ⟨m, heq', hm⟩ := State.runOne_presents
      (s.withMicro { Micro.rest with tagLatch := tag, runLeft := BitVec.ofNat 6 (runLength fn) })
    rw [State.withMicro_commit, State.withMicro_present, State.withMicro_withMicro] at heq'
    exact ⟨s.last, m, heq.trans heq', hm.imp And.left fun h => ⟨fn, rfl, h⟩⟩

/-! ### The handshakes -/

/-- A byte in CHUNK completes a chunk or is latched. -/
theorem State.chunkByte_cases (s : State) (b : Byte) :
    (∃ i rest, decodeChunk (s.micro.received ++ [b]) = .ok (i, rest) ∧
        s.chunkByte b = s.complete (if s.micro.tagLatch = 0 then b else s.micro.tagLatch) i) ∨
      ∃ e, decodeChunk (s.micro.received ++ [b]) = .error e ∧
        s.chunkByte b = s.withMicro (s.micro.latchByte b) := by
  have hbytes : (if s.micro.tagLatch = 0 then [b]
      else s.micro.tagLatch :: (s.micro.opnd.toList.take s.micro.haveCnt.toNat ++ [b])) = s.micro.received ++ [b] := by
    unfold Micro.received; split <;> rfl
  simp only [State.chunkByte, hbytes]
  cases hd : decodeChunk (s.micro.received ++ [b]) with
  | ok r => exact .inl ⟨r.1, r.2, rfl, rfl⟩
  | error e =>
    refine .inr ⟨e, rfl, ?_⟩
    by_cases htag : s.micro.tagLatch = 0 <;> simp only [htag, if_true, if_false, Micro.latchByte, State.withMicro]

/-- An input event: refused, the end of the source, a byte of a chunk, or a byte of the terminator. -/
theorem State.inputEvent_cases (s : State) :
    (s.inReady = false ∧ s.inputEvent = s) ∨
      (s.inReady = true ∧ s.src.length ≤ s.pos ∧
        s.inputEvent = s.raise (if s.phase = .chunk then .unexpectedInputEnd else .badEnding)) ∨
      ∃ b, s.inReady = true ∧ s.src[s.pos]? = some b ∧
        (s.phase = .chunk ∧ s.inputEvent = (s.advance 1).chunkByte b ∨
          s.phase = .term ∧ s.inputEvent = (s.advance 1).termByte b) := by
  cases hr : s.inReady with
  | false => exact .inl ⟨rfl, by simp [State.inputEvent, hr]⟩
  | true =>
    right
    cases hn : s.nextByte with
    | none => exact .inl ⟨rfl, State.nextByte_eq_none.1 hn, by simp [State.inputEvent, hr, hn]⟩
    | some bt =>
      obtain ⟨b, t⟩ := bt
      obtain ⟨hb, rfl⟩ := State.nextByte_eq_some.1 hn
      obtain ⟨hbusy, -⟩ := State.inReady_iff.1 hr
      refine .inr ⟨b, rfl, hb, ?_⟩
      by_cases hp : s.phase = .chunk
      · exact .inl ⟨hp, by rw [State.inputEvent, if_pos hr, hn]; exact if_pos hp⟩
      · exact .inr ⟨by simpa [State.busy, hp] using hbusy, by rw [State.inputEvent, if_pos hr, hn]; exact if_neg hp⟩

/-- An output event: nothing waits, the pixel is taken, or a RUN goes on with its next one. -/
theorem State.outputEvent_cases (s : State) :
    (s.out = none ∧ s.outputEvent = s) ∨
      (s.out.isSome = true ∧ s.micro.runLeft = 0 ∧ s.outputEvent = { s with out := none }) ∨
      (s.out.isSome = true ∧ s.micro.runLeft ≠ 0 ∧ s.outputEvent = State.runOne { s with out := none }) := by
  cases ho : s.out with
  | none => exact .inl ⟨rfl, by simp [State.outputEvent, ho]⟩
  | some p =>
    by_cases hr : s.micro.runLeft = 0
    · exact .inr (.inl ⟨rfl, hr, by simp [State.outputEvent, ho, hr]⟩)
    · exact .inr (.inr ⟨rfl, hr, by rw [State.outputEvent, ho, if_pos Option.isSome_some, if_neg hr]⟩)

end Sys2Proof.Machine
end

section
/-!
PROOFS. Every event of the byte-granular machine keeps the pixel invariant and what the output port presents
(spec 10_state.md R22, R24, 20_memory.md R38).
-/

namespace Sys2Proof.Machine

open Sys2Proof

/-- With nothing on the output and no RUN in progress only the pixel invariant is asked for. -/
theorem State.PixelInv.portInv {s : State} (h : s.PixelInv) (hrun : s.micro.runLeft = 0) (hout : s.out = none) :
    s.PortInv := ⟨h, fun hne => absurd hrun hne, fun hsome => by simp [hout] at hsome⟩

/-- In a busy block the micro-state, the output port and the bytes consumed are no part of the pixel invariant. -/
theorem State.PixelInv.ofPorts {s t : State} (h : s.PixelInv) (hb : s.busy = true) (hpx : SamePixels s t)
    (hsize : t.size = s.size) (hphase : t.phase = s.phase) (herr : t.err = s.err) (hcur : t.CursorInSource) :
    t.PixelInv := h.samePixels hb hpx hsize (.inl ⟨hphase, herr⟩) hcur

/-- A pixel that is required, committed and presented keeps the invariant. -/
theorem State.PixelInv.present {s : State} (h : s.PixelInv) (hp : s.phase = .chunk) (p : Pixel) {m : Micro}
    (hm : m.runLeft ≠ 0 → s.count + 1 ≠ s.size) : ((s.commit p).present.withMicro m).PortInv := by
  have hcur := h.cursorInSource
  have hinv : (s.commit p).loopTest.PixelInv :=
    h.chunk (n := 0) hp (ChunkPixels.of_commit s p).loopTest ⟨by simp, by simp, by simp [hp]⟩
      (by simpa [State.CursorInSource] using hcur)
  have hbusy : (s.commit p).loopTest.busy = true := by
    simp only [State.busy, State.loopTest_phase, State.commit_phase, hp]; split <;> rfl
  refine ⟨hinv.ofPorts hbusy (by simp [SamePixels]) (by simp) (by simp) (by simp) ?_, fun hrun => ?_, fun _ => ?_⟩
  · simpa [State.CursorInSource] using hcur
  · exact ⟨by simpa [hp] using hm hrun, by simp⟩
  · exact ⟨by simpa [State.busy] using hbusy, by simp⟩

theorem State.PixelInv.chunkByte {s : State} (h : s.PixelInv) (hp : s.phase = .chunk) (hrun : s.micro.runLeft = 0)
    (hout : s.out = none) (b : Byte) : (s.chunkByte b).PortInv := by
  rcases s.chunkByte_cases b with ⟨i, rest, hd, heq⟩ | ⟨e, -, heq⟩ <;> rw [heq]
  · obtain ⟨p, m, heq', hm⟩ := State.complete_presents (tag := if s.micro.tagLatch = 0 then b else s.micro.tagLatch)
      hp (decode_context (c := .chunk) hd)
    rw [heq']
    refine h.present hp p ?_
    rcases hm with rfl | ⟨-, -, -, hne, -⟩
    · exact fun hne => absurd rfl hne
    · exact fun _ => hne
  · have hinv : (s.withMicro (s.micro.latchByte b)).PixelInv :=
      h.ofPorts (by simp [State.busy, hp]) ⟨rfl, rfl, rfl, rfl⟩ rfl rfl rfl h.cursorInSource
    exact hinv.portInv (by simpa using hrun) hout

theorem State.PixelInv.termByte {s : State} (h : s.PixelInv) (hp : s.phase = .term) (hrun : s.micro.runLeft = 0)
    (hout : s.out = none) (b : Byte) : (s.termByte b).PortInv := by
  have hbusy : s.busy = true := by simp [State.busy, hp]
  rcases s.termByte_cases b with ⟨-, heq⟩ | ⟨-, -, heq⟩ | ⟨-, -, heq⟩ <;> rw [heq] <;>
    refine State.PixelInv.portInv (h.samePixels hbusy ⟨rfl, rfl, rfl, rfl⟩ rfl ?_ h.cursorInSource) hrun hout
  · exact .inl ⟨rfl, rfl⟩
  · exact .inr (.inl ⟨hp, rfl, rfl⟩)
  · exact .inr (.inr ⟨rfl, by simp⟩)

theorem State.PortInv.input {s : State} (h : s.PortInv) : s.inputEvent.PortInv := by
  obtain ⟨hinv, -, -⟩ := id h
  rcases s.inputEvent_cases with ⟨-, heq⟩ | ⟨hr, -, heq⟩ | ⟨b, hr, hb, hcase⟩
  · rwa [heq]
  · obtain ⟨hbusy, hrun, hout⟩ := State.inReady_iff.1 hr
    rw [heq]
    refine State.PixelInv.portInv (hinv.samePixels hbusy ⟨rfl, rfl, rfl, rfl⟩ rfl ?_ hinv.cursorInSource) hrun hout
    exact .inr (.inr ⟨rfl, by rw [State.raise_err]; split <;> simp⟩)
  · obtain ⟨hbusy, hrun, hout⟩ := State.inReady_iff.1 hr
    have hadv : (s.advance 1).PixelInv :=
      hinv.ofPorts hbusy ⟨rfl, rfl, rfl, rfl⟩ rfl rfl rfl (List.getElem?_eq_some_iff.1 hb).1
    rcases hcase with ⟨hp, heq⟩ | ⟨hp, heq⟩ <;> rw [heq]
    · exact hadv.chunkByte hp hrun hout b
    · exact hadv.termByte hp hrun hout b

theorem State.PortInv.output {s : State} (h : s.PortInv) : s.outputEvent.PortInv := by
  obtain ⟨hinv, hrunning, hout⟩ := id h
  have hcur := hinv.cursorInSource
  have hfree (hsome : s.out.isSome = true) : State.PixelInv { s with out := none } :=
    hinv.ofPorts (hout hsome).1 ⟨rfl, rfl, rfl, rfl⟩ rfl rfl rfl hcur
  rcases s.outputEvent_cases with ⟨-, heq⟩ | ⟨hsome, hrun, heq⟩ | ⟨hsome, hrun, heq⟩ <;> rw [heq]
  · exact h
  · exact (hfree hsome).portInv hrun rfl
  · obtain ⟨m, heq', hm⟩ := State.runOne_presents { s with out := none }
    rw [heq']
    refine (hfree hsome).present (hrunning hrun).1 _ ?_
    rcases hm with ⟨rfl, -⟩ | ⟨-, hne, -⟩
    · exact fun hne => absurd rfl hne
    · exact fun _ => hne

/-- Settles O51: reset and START leave the output free, and each handshake commits at most one pixel, which it presents. -/
theorem eventsKeepPortInvariant : Obligations.EventsKeepPortInvariant := by
  have hreset : State.reset.PortInv := State.reset_pixelInv.portInv rfl rfl
  refine ⟨hreset, fun s e h => ?_⟩
  cases e with
  | input => exact h.input
  | output => exact h.output
  | command c =>
    exact s.accept_keeps (P := State.PortInv) (fun _ => h) (fun n src => (State.start_pixelInv n src).portInv rfl rfl)
      hreset c

end Sys2Proof.Machine
end

section
/-!
PROOFS. At every handshake the micro-state holds what R22's table says (spec 10_state.md R22, 30_encoding.md R51, R58,
45_termination_and_start.md R105).
-/

namespace Sys2Proof.Machine

open Sys2Proof

/-! ### The bytes consumed -/

theorem State.consumed_advance {s : State} {b : Byte} (h : s.src[s.pos]? = some b) :
    (s.advance 1).consumed = s.consumed ++ [b] := by
  simp [State.consumed, List.take_add_one, h]

/-- The latch speaks of the bytes received (R22). -/
theorem State.latchHoldsTheChunk_iff {s : State} :
    s.LatchHoldsTheChunk ↔ (s.micro.tagLatch = 0 → s.micro.haveCnt = 0) ∧
      (s.micro.tagLatch ≠ 0 → s.phase = .chunk ∨ s.phase = .error) ∧ s.micro.received <:+ s.consumed := by
  by_cases h : s.micro.tagLatch = 0
  · simp [State.LatchHoldsTheChunk, Micro.received_of_no_tag h, h]
  · simp only [State.LatchHoldsTheChunk, Micro.received_of_tag h, ne_eq, h, not_false_eq_true, true_implies]

/-! ### The terminator bytes -/

/-- The last `term_cnt` bytes consumed, and whether they are the terminator's first ones. -/
def State.TermBytesCounted (s : State) : Prop :=
  ∃ bs, bs <:+ s.consumed ∧ bs.length = s.micro.termCnt.toNat ∧
    (s.micro.termOk = true ↔ bs = terminator.take s.micro.termCnt.toNat)

/-- A list one longer is the terminator's front exactly when the list is and the new byte is the terminator's next. -/
theorem append_eq_take_terminator {bs : List Byte} {b : Byte} {n : Nat} (hlen : bs.length = n) (hn : n < 8) :
    bs ++ [b] = terminator.take (n + 1) ↔ bs = terminator.take n ∧ terminator[n]? = some b := by
  have hn' : n < terminator.length := hn
  rw [List.take_add_one, List.getElem?_eq_getElem hn', Option.toList_some, Option.some_inj, eq_comm (a := terminator[n])]
  constructor
  · intro h
    obtain ⟨hbs, hb⟩ := List.append_inj' h rfl
    exact ⟨hbs, by simpa using hb⟩
  · rintro ⟨rfl, rfl⟩; rfl

/-- Fewer than eight bytes counted, one more is (R105). -/
theorem State.TermBytesCounted.compareByte {s : State} {b : Byte} (h : s.TermBytesCounted)
    (hlt : s.micro.termCnt.toNat < 8) (hb : s.src[s.pos]? = some b) :
    ((s.advance 1).compareByte b).TermBytesCounted ∧
      ((s.advance 1).compareByte b).micro.termCnt.toNat = s.micro.termCnt.toNat + 1 := by
  obtain ⟨bs, hsuf, hlen, hok⟩ := h
  have hcnt : (s.micro.termCnt + 1).toNat = s.micro.termCnt.toNat + 1 :=
    BitVec.toNat_add_of_lt (show s.micro.termCnt.toNat + 1 < 16 by omega)
  refine ⟨⟨bs ++ [b], ?_, ?_, ?_⟩, hcnt⟩
  · show bs ++ [b] <:+ (s.advance 1).consumed
    rwa [State.consumed_advance hb, List.suffix_append_self_iff]
  · rw [List.length_append, hlen]; exact hcnt.symm
  · simp only [State.compareByte_micro, State.advance_micro, hcnt, append_eq_take_terminator hlen hlt, ← hok,
      Bool.and_eq_true, beq_iff_eq]

/-! ### The micro-state -/

/-- At rest nothing is latched and nothing counted, so the table holds outside DONE. -/
theorem State.MicroInv.of_rest {s : State} (hm : s.micro = Micro.rest) (hp : s.phase ≠ .done) : s.MicroInv := by
  refine ⟨by simp [State.LatchHoldsTheChunk, hm, Micro.rest], by simp [State.ChunkIsUnfinished, hm, Micro.rest],
    ⟨[], by simp [hm, Micro.rest]⟩, ?_⟩
  simp [hm, Micro.rest, hp]

/-- In CHUNK no terminator byte has been counted. -/
theorem State.termCountsTheTerminator_of_chunk {s : State} (hp : s.phase = .chunk) (hcnt : s.micro.termCnt = 0)
    (hok : s.micro.termOk = true) : s.TermCountsTheTerminator :=
  ⟨⟨[], by simp [hcnt, hok]⟩, by simp [hcnt], fun _ => hcnt, by simp [hp], by simp [hp]⟩

theorem State.TermCountsTheTerminator.of_chunk {s : State} (h : s.TermCountsTheTerminator) (hp : s.phase = .chunk) :
    s.micro.termCnt = 0 ∧ s.micro.termOk = true := by
  obtain ⟨⟨bs, -, hlen, hok⟩, -, hzero, -⟩ := h
  have hcnt := hzero (.inl hp)
  rw [hcnt] at hlen hok
  exact ⟨hcnt, hok.2 (by simpa using hlen)⟩

/-- A failed decode keeps what it held (log 5). -/
theorem State.MicroInv.raise {s : State} (h : s.MicroInv) (hrun : s.micro.runLeft = 0) (e : ErrorKind) :
    (s.raise e).MicroInv := by
  obtain ⟨⟨hnone, hlatch⟩, ⟨-, hwait⟩, hbytes, hle, -⟩ := h
  exact ⟨⟨hnone, fun htag => ⟨.inr rfl, (hlatch htag).2⟩⟩, ⟨fun hne => absurd hrun hne, hwait⟩, hbytes, hle,
    by simp, by simp, by simp⟩

/-- A RUN with pixels left to commit, its tag the last byte consumed. -/
theorem State.MicroInv.of_run {s : State} (hp : s.phase = .chunk) (hop : classify s.micro.tagLatch = .run)
    (hhave : s.micro.haveCnt = 0) (hrun : s.micro.runLeft ≠ 0) (hsuf : [s.micro.tagLatch] <:+ s.consumed)
    (hterm : s.TermCountsTheTerminator) : s.MicroInv := by
  refine ⟨⟨fun _ => hhave, fun _ => ⟨.inl hp, ?_⟩⟩, ⟨fun _ => ⟨hp, hop, hhave⟩, fun _ h => absurd h hrun⟩, hterm⟩
  rw [hhave]
  exact hsuf

/-- A byte latched in CHUNK is the last of the bytes consumed. -/
theorem State.MicroInv.latchByte {s : State} {b : Byte} {e : DecodeError} (h : s.MicroInv) (hp : s.phase = .chunk)
    (hrun : s.micro.runLeft = 0) (hb : s.src[s.pos]? = some b)
    (he : decodeChunk (s.micro.received ++ [b]) = .error e) :
    ((s.advance 1).withMicro (s.micro.latchByte b)).MicroInv := by
  obtain ⟨hlatch, -, hterm⟩ := h
  obtain ⟨hnone, -, hsuf⟩ := State.latchHoldsTheChunk_iff.1 hlatch
  obtain ⟨hcnt, hok⟩ := hterm.of_chunk hp
  obtain ⟨hrec, htag, hlt⟩ := Micro.received_latchByte hnone he
  refine ⟨State.latchHoldsTheChunk_iff.2 ⟨fun h => absurd h htag, fun _ => .inl hp, ?_⟩, ?_,
    State.termCountsTheTerminator_of_chunk hp (by simpa using hcnt) (by simpa using hok)⟩
  · show (s.micro.latchByte b).received <:+ (s.advance 1).consumed
    rwa [hrec, State.consumed_advance hb, List.suffix_append_self_iff]
  · exact ⟨fun hne => absurd (by simpa using hrun) hne, fun _ _ => hlt⟩

/-- A RUN is read from a tag of its own range. -/
theorem decodeChunk_run {tag : Byte} {bs rest : List Byte} {fn : BitVec 6}
    (h : decodeChunk (tag :: bs) = .ok (.run fn, rest)) : classify tag = .run ∧ fn = tag.extractLsb' 0 6 := by
  cases hop : classify tag <;> simp only [decodeChunk, hop] at h <;> (try split at h) <;> simp at h
  exact ⟨rfl, h.1.symm⟩

/-- While trailing bytes are awaited the tag latched is no RUN's, so a RUN is read from the byte that arrives. -/
theorem State.MicroInv.run_tag {s : State} {b : Byte} {fn : BitVec 6} {rest : List Byte} (h : s.MicroInv)
    (hrun : s.micro.runLeft = 0) (hd : decodeChunk (s.micro.received ++ [b]) = .ok (.run fn, rest)) :
    s.micro.tagLatch = 0 ∧ classify b = .run := by
  by_cases htag : s.micro.tagLatch = 0
  · rw [Micro.received_of_no_tag htag] at hd
    exact ⟨htag, (decodeChunk_run hd).1⟩
  · obtain ⟨-, ⟨-, hwait⟩, -⟩ := h
    rw [Micro.received_of_tag htag] at hd
    have hlt := hwait htag hrun
    simp [(decodeChunk_run hd).1, Opcode.trailing] at hlt

theorem sub_one_ne_zero_of_ne_one {r : BitVec 6} (h : r ≠ 1) : r - 1 ≠ 0 := fun h0 => h (by bv_omega)

theorem State.MicroInv.chunkByte {s : State} {b : Byte} (h : s.MicroInv) (hp : s.phase = .chunk)
    (hrun : s.micro.runLeft = 0) (hb : s.src[s.pos]? = some b) : ((s.advance 1).chunkByte b).MicroInv := by
  rcases (s.advance 1).chunkByte_cases b with ⟨i, rest, hd, heq⟩ | ⟨e, he, heq⟩ <;> rw [heq]
  · obtain ⟨p, m, heq', hm⟩ := State.complete_presents
      (tag := if (s.advance 1).micro.tagLatch = 0 then b else (s.advance 1).micro.tagLatch)
      (s := s.advance 1) hp (decode_context (c := .chunk) hd)
    rw [heq']
    rcases hm with rfl | ⟨fn, rfl, hne, hcount, rfl⟩
    · exact .of_rest rfl (by simp [hp]; split <;> simp)
    · obtain ⟨htag, hop⟩ := h.run_tag hrun hd
      have hpart : [b] <:+ (s.advance 1).consumed := by rw [State.consumed_advance hb]; exact List.suffix_append _ _
      rw [State.advance_micro, if_pos htag]
      have hchunk : ((s.advance 1).commit p).present.phase = .chunk := by simpa [hp] using hcount
      exact .of_run hchunk hop rfl (sub_one_ne_zero_of_ne_one hne) (by simpa [State.consumed] using hpart)
        (State.termCountsTheTerminator_of_chunk hchunk rfl rfl)
  · exact h.latchByte hp hrun hb he

/-- With no chunk in progress, after CHUNK, the table speaks of the terminator bytes alone. -/
theorem State.MicroInv.of_counted {s : State} (htag : s.micro.tagLatch = 0) (hhave : s.micro.haveCnt = 0)
    (hrun : s.micro.runLeft = 0) (hbytes : s.TermBytesCounted) (hle : s.micro.termCnt.toNat ≤ 8)
    (hp : s.phase = .term ∧ s.micro.termCnt.toNat ≠ 8 ∨
      s.phase = .done ∧ s.micro.termCnt = 8 ∧ s.micro.termOk = true ∨ s.phase = .error) : s.MicroInv := by
  refine ⟨⟨fun _ => hhave, fun h => absurd htag h⟩, ⟨fun h => absurd hrun h, fun h => absurd htag h⟩, hbytes, hle, ?_⟩
  rcases hp with ⟨hp, hne⟩ | ⟨hp, h8⟩ | hp
  · exact ⟨by simp [hp], fun _ => Nat.lt_of_le_of_ne hle hne, by simp [hp]⟩
  · exact ⟨by simp [hp], by simp [hp], fun _ => h8⟩
  · exact ⟨by simp [hp], by simp [hp], by simp [hp]⟩

theorem State.MicroInv.termByte {s : State} {b : Byte} (h : s.MicroInv) (hp : s.phase = .term)
    (hrun : s.micro.runLeft = 0) (hb : s.src[s.pos]? = some b) : ((s.advance 1).termByte b).MicroInv := by
  obtain ⟨⟨hnone, hlatch⟩, -, hbytes, -, -, hlt, -⟩ := h
  have htag : s.micro.tagLatch = 0 := by
    by_contra hne
    rcases (hlatch hne).1 with hp' | hp' <;> simp [hp] at hp'
  obtain ⟨hbytes', hcnt⟩ := State.TermBytesCounted.compareByte hbytes (hlt hp) hb
  have hle : ((s.advance 1).compareByte b).micro.termCnt.toNat ≤ 8 := by have := hlt hp; omega
  rcases (s.advance 1).termByte_cases b with ⟨h7, heq⟩ | ⟨h7, hok, heq⟩ | ⟨-, -, heq⟩ <;> rw [heq]
  · have hne : s.micro.termCnt.toNat ≠ 7 := fun h => h7 (BitVec.eq_of_toNat_eq h)
    exact .of_counted htag (hnone htag) hrun hbytes' hle (.inl ⟨hp, by omega⟩)
  · have h8 : s.micro.termCnt + 1 = 8 := by rw [show s.micro.termCnt = 7 from h7]; rfl
    exact .of_counted htag (hnone htag) hrun hbytes' hle (.inr (.inl ⟨rfl, h8, hok⟩))
  · exact .of_counted htag (hnone htag) hrun hbytes' hle (.inr (.inr rfl))

theorem State.MicroInv.input {s : State} (h : s.MicroInv) : s.inputEvent.MicroInv := by
  rcases s.inputEvent_cases with ⟨-, heq⟩ | ⟨hr, -, heq⟩ | ⟨b, hr, hb, ⟨hp, heq⟩ | ⟨hp, heq⟩⟩ <;> rw [heq]
  · exact h
  all_goals obtain ⟨-, hrun, -⟩ := State.inReady_iff.1 hr
  · exact h.raise hrun _
  · exact h.chunkByte hp hrun hb
  · exact h.termByte hp hrun hb

theorem State.MicroInv.output {s : State} (h : s.MicroInv) : s.outputEvent.MicroInv := by
  rcases s.outputEvent_cases with ⟨-, heq⟩ | ⟨-, -, heq⟩ | ⟨-, hrun, heq⟩ <;> rw [heq]
  · exact h
  · exact h
  · obtain ⟨⟨-, hlatch⟩, ⟨hrunning, -⟩, hterm⟩ := h
    obtain ⟨hp, hop, hhave⟩ := hrunning hrun
    obtain ⟨hcnt, hok⟩ := hterm.of_chunk hp
    have htag : s.micro.tagLatch ≠ 0 := fun h0 => by rw [h0] at hop; cases hop
    have hsuf := (hlatch htag).2
    rw [hhave] at hsuf
    obtain ⟨m, heq', hm⟩ := State.runOne_presents { s with out := none }
    rw [heq']
    rcases hm with ⟨rfl, -⟩ | ⟨hne, hcount, rfl⟩
    · exact .of_rest rfl (by simp [hp]; split <;> simp)
    · have hchunk : (State.commit { s with out := none } s.last).present.phase = .chunk := by simpa [hp] using hcount
      exact .of_run hchunk hop hhave (sub_one_ne_zero_of_ne_one hne) (by simpa [State.consumed] using hsuf)
        (State.termCountsTheTerminator_of_chunk hchunk hcnt hok)

/-- Settles O54: a byte that arrives is latched, counted, or completes its chunk, and then the micro-state is at rest or holds
the tag of a RUN until its last pixel is committed. -/
theorem eventsKeepMicroState : Obligations.EventsKeepMicroState := by
  have hreset : State.reset.MicroInv := .of_rest rfl (by simp)
  refine ⟨hreset, fun s e h => ?_⟩
  cases e with
  | input => exact h.input
  | output => exact h.output
  | command c =>
    exact s.accept_keeps (P := State.MicroInv) (fun _ => h)
      (fun n src => .of_rest rfl (by rcases State.start_phase_cases n src with ⟨-, hp⟩ | ⟨-, hp⟩ <;> rw [hp] <;> simp))
      hreset c

end Sys2Proof.Machine
end

section
/-!
PROOFS. The handshakes of one chunk or of the terminator check lead to what the chunk-granular step answers (spec
10_state.md R22, 20_memory.md R42, 44_run_chunk.md R102, 45_termination_and_start.md R105).
-/

namespace Sys2Proof.Machine

open Sys2Proof

/-! ### Reading the source -/

theorem State.advance_advance (s : State) (m n : Nat) : (s.advance m).advance n = s.advance (m + n) := by
  simp [State.advance, Nat.add_assoc]

theorem State.remaining_advance (s : State) (n : Nat) : (s.advance n).remaining = s.remaining.drop n := by
  simp [State.remaining, Nat.add_comm]

theorem State.getElem?_of_remaining {s : State} {b : Byte} {rest : List Byte} (h : s.remaining = b :: rest) :
    s.src[s.pos]? = some b := by
  have := congrArg (fun l : List Byte => l[0]?) h
  simpa [State.remaining] using this

theorem State.handshake_of_byte {s : State} {b : Byte} {rest : List Byte} (hr : s.inReady = true)
    (h : s.remaining = b :: rest) :
    (s.phase = .chunk → s.handshake = (s.advance 1).chunkByte b) ∧
      (s.phase = .term → s.handshake = (s.advance 1).termByte b) := by
  obtain ⟨-, -, hout⟩ := State.inReady_iff.1 hr
  have hb := State.getElem?_of_remaining h
  rw [State.handshake_of_free hout]
  rcases s.inputEvent_cases with ⟨hr', -⟩ | ⟨-, hle, -⟩ | ⟨b', -, hb', hcase⟩
  · simp [hr] at hr'
  · simp [List.getElem?_eq_none hle] at hb
  · obtain rfl : b' = b := by simpa [hb] using hb'.symm
    rcases hcase with ⟨hp, heq⟩ | ⟨hp, heq⟩ <;> simp [hp, heq]

theorem State.handshake_of_end {s : State} (hr : s.inReady = true) (h : s.remaining = []) :
    s.handshake = s.raise (if s.phase = .chunk then .unexpectedInputEnd else .badEnding) := by
  obtain ⟨-, -, hout⟩ := State.inReady_iff.1 hr
  have hle : s.src.length ≤ s.pos := List.drop_eq_nil_iff.1 h
  rw [State.handshake_of_free hout]
  rcases s.inputEvent_cases with ⟨hr', -⟩ | ⟨-, -, heq⟩ | ⟨b, -, hb, -⟩
  · simp [hr] at hr'
  · exact heq
  · simp [List.getElem?_eq_none hle] at hb

/-! ### The bytes of a chunk -/

/-- A chunk read is rejected until its last byte is there. -/
theorem decodeChunk_last_byte {bs rest : List Byte} {i : Instr} (h : decodeChunk bs = .ok (i, rest)) :
    ∃ xs b, bs = xs ++ b :: rest ∧ i.length = xs.length + 1 ∧ (∃ e, decodeChunk xs = .error e) ∧
      decodeChunk (xs ++ [b]) = .ok (i, []) := by
  obtain ⟨hle, hpos, -, hrest⟩ := decodeChunk_consumes h
  rcases bs with _ | ⟨tag, bs⟩
  · simp [decodeChunk] at h
  have hlen := decodeChunk_length h
  have htake : decodeChunk (tag :: bs.take (classify tag).trailing) = .ok (i, []) := by
    rcases decodeChunk_cons tag (bs.take (classify tag).trailing) with ⟨j, r, hok, rfl, -⟩ | ⟨-, hlt⟩
    · have hmore := decodeChunk_append (bs.drop (classify tag).trailing) hok
      rw [List.cons_append, List.take_append_drop, h] at hmore
      obtain ⟨rfl, -⟩ : i = j ∧ _ := by simpa using hmore
      simpa using hok
    · rw [List.length_take] at hlt
      rw [List.length_cons] at hle
      omega
  obtain ⟨xs, b, hxs⟩ := (List.eq_nil_or_concat' (tag :: bs.take (classify tag).trailing)).resolve_left (by simp)
  have hbs : tag :: bs = xs ++ b :: rest := by
    rw [List.append_cons, ← hxs, hrest, hlen, Nat.add_comm, List.drop_succ_cons, List.cons_append,
      List.take_append_drop]
  have hxlen : i.length = xs.length + 1 := by
    have := congrArg List.length hxs
    have := (decodeChunk_consumes htake)
    simp at *
    omega
  refine ⟨xs, b, hbs, hxlen, ?_, hxs ▸ htake⟩
  cases hd : decodeChunk xs with
  | error e => exact ⟨e, rfl⟩
  | ok r =>
    have hmore := decodeChunk_append (b :: rest) (show decodeChunk xs = .ok (r.1, r.2) from hd)
    rw [← hbs, h] at hmore
    obtain ⟨hi, -⟩ : i = r.1 ∧ _ := by simpa using hmore
    have := (decodeChunk_consumes (show decodeChunk xs = .ok (r.1, r.2) from hd)).1
    rw [← hi] at this
    omega

/-- Bytes that do not complete the chunk are latched, one handshake each. -/
theorem handshakes_latch {xs ys : List Byte} {e : DecodeError} {s : State} (hp : s.phase = .chunk)
    (hrun : s.micro.runLeft = 0) (hout : s.out = none) (hnone : s.micro.tagLatch = 0 → s.micro.haveCnt = 0)
    (hsrc : s.remaining = xs ++ ys) (he : decodeChunk (s.micro.received ++ xs) = .error e) :
    ∃ m, State.handshake^[xs.length] s = (s.advance xs.length).withMicro m ∧
      m.received = s.micro.received ++ xs ∧ m.runLeft = 0 := by
  induction xs generalizing s with
  | nil => exact ⟨s.micro, rfl, by simp, hrun⟩
  | cons x xs ih =>
    have hr : s.inReady = true := State.inReady_iff.2 ⟨by simp [State.busy, hp], hrun, hout⟩
    rcases (s.advance 1).chunkByte_cases x with ⟨i, rest, hd, -⟩ | ⟨e', he', heq⟩
    · have hmore := decodeChunk_append xs hd
      simp only [State.advance_micro, List.append_assoc, List.singleton_append] at hmore
      rw [he] at hmore
      cases hmore
    · obtain ⟨hrec, htag, -⟩ := Micro.received_latchByte hnone he'
      have hstep : s.handshake = (s.advance 1).withMicro (s.micro.latchByte x) := by
        rw [(State.handshake_of_byte hr hsrc).1 hp, heq]; rfl
      obtain ⟨m, hrest, hm, hm'⟩ := ih (s := s.handshake) (by simpa [hstep] using hp) (by simpa [hstep] using hrun)
        (by simpa [hstep] using hout) (fun h => absurd (by simpa [hstep] using h) htag)
        (by simp [hstep, State.remaining_advance, hsrc]) (by simpa [hstep, hrec] using he)
      refine ⟨m, ?_, by simp [hm, hstep, hrec], hm'⟩
      rw [List.length_cons, Function.iterate_succ_apply, hrest, hstep, Nat.add_comm, ← State.advance_advance]
      rfl

/-- From a chunk boundary the handshakes of a chunk's bytes bring the state in which the chunk completes. -/
theorem handshakes_read_chunk {s : State} {i : Instr} {rest : List Byte} (hp : s.phase = .chunk) (hrest : s.AtRest)
    (hd : decodeChunk s.remaining = .ok (i, rest)) :
    ∃ tag m, State.handshake^[i.length] s = ((s.advance i.length).withMicro m).complete tag i := by
  obtain ⟨hm, hout⟩ := hrest
  obtain ⟨xs, b, hbs, hlen, ⟨e, he⟩, hok⟩ := decodeChunk_last_byte hd
  obtain ⟨m, hread, hrec, hrun⟩ := handshakes_latch (xs := xs) (ys := b :: rest) hp (by rw [hm]; rfl) hout
    (fun _ => by rw [hm]; rfl) hbs (by simpa [hm] using he)
  rw [hm, Micro.received_rest, List.nil_append] at hrec
  have hr : ((s.advance xs.length).withMicro m).inReady = true :=
    State.inReady_iff.2 ⟨by simp [State.busy, hp], hrun, hout⟩
  have hsrc : ((s.advance xs.length).withMicro m).remaining = b :: rest := by simp [State.remaining_advance, hbs]
  rw [hlen, Function.iterate_succ_apply', hread, (State.handshake_of_byte hr hsrc).1 hp, State.withMicro_advance,
    State.advance_advance]
  rcases ((s.advance (xs.length + 1)).withMicro m).chunkByte_cases b with ⟨j, r, hj, heq⟩ | ⟨e', he', -⟩
  · rw [State.withMicro_micro, hrec, hok] at hj
    cases hj
    exact ⟨_, m, heq⟩
  · rw [State.withMicro_micro, hrec, hok] at he'
    cases he'

/-! ### The pixels of a chunk -/

/-- The pixel presented is taken: what is left is the loop test (R70). -/
theorem State.present_taken {s : State} (h : s.out = none) : { s.present with out := none } = s.loopTest := by
  obtain ⟨⟩ := s
  subst h
  simp only [State.present, State.loopTest]
  split <;> rfl

/-- A last commit, presented and taken. -/
theorem handshake_takes_last {s : State} (h : s.out = none) {m : Micro} (hm : m.runLeft = 0) :
    State.handshake (s.present.withMicro m) = s.loopTest.withMicro m := by
  rw [State.handshake_of_out (p := s.last) (by simp)]
  rcases State.outputEvent_cases (s.present.withMicro m) with ⟨hnone, -⟩ | ⟨-, -, heq⟩ | ⟨-, hne, -⟩
  · simp at hnone
  · rw [heq, ← State.present_taken h]; rfl
  · exact absurd hm hne

/-- Before the last pixel of a RUN leaves, the next one is committed. -/
theorem handshake_runs_on {s : State} (hout : s.out = none) (hcount : s.count + 1 ≠ s.size) {m : Micro}
    (hm : m.runLeft ≠ 0) :
    State.handshake ((s.commit s.last).present.withMicro m) = ((s.commit s.last).withMicro m).runOne := by
  rw [State.handshake_of_out (p := s.last) (by simp)]
  rcases State.outputEvent_cases ((s.commit s.last).present.withMicro m) with ⟨hnone, -⟩ | ⟨-, hrun, -⟩ | ⟨-, -, heq⟩
  · simp at hnone
  · exact absurd hrun hm
  · have hloop : (s.commit s.last).loopTest = s.commit s.last := if_neg fun h => hcount h.2
    rw [heq]
    exact congrArg (fun t => State.runOne (t.withMicro m)) ((State.present_taken (s := s.commit s.last) hout).trans hloop)

theorem State.count_add_one {s : State} (h : s.count.toNat < s.size.toNat) :
    (s.count + 1).toNat = s.count.toNat + 1 :=
  BitVec.toNat_add_of_lt (show s.count.toNat + 1 < 2 ^ 64 by have := s.size.isLt; omega)

/-- A RUN ends with the next repetition when it is its last one or the last pixel required. -/
theorem run_ends_iff {s : State} (hcount : s.count.toNat < s.size.toNat) (hrun : s.micro.runLeft ≠ 0) :
    s.micro.runLeft = 1 ∨ s.count + 1 = s.size ↔ min s.micro.runLeft.toNat s.room = 1 := by
  have hpos : s.micro.runLeft.toNat ≠ 0 := fun h => hrun (BitVec.eq_of_toNat_eq h)
  rw [← BitVec.toNat_inj, ← BitVec.toNat_inj, State.count_add_one hcount, State.room,
    show (1 : BitVec 6).toNat = 1 from rfl]
  omega

/-- The pixels of a RUN leave one by one, as many as are left in it and required (R102). -/
theorem handshakes_run {k : Nat} {s : State} (hp : s.phase = .chunk) (hout : s.out = none)
    (hcount : s.count.toNat < s.size.toNat) (hrun : s.micro.runLeft ≠ 0)
    (hk : min s.micro.runLeft.toNat s.room = k + 1) :
    State.handshake^[k + 1] s.runOne = (s.commitLast (k + 1)).loopTest.withMicro Micro.rest := by
  induction k generalizing s with
  | zero =>
    obtain ⟨m, heq, ⟨rfl, -⟩ | ⟨hne, hnlast, -⟩⟩ := s.runOne_presents
    · rw [heq]
      exact handshake_takes_last (s := s.commit s.last) (m := Micro.rest) hout rfl
    · rcases (run_ends_iff hcount hrun).2 hk with h | h
      · exact absurd h hne
      · exact absurd h hnlast
  | succ k ih =>
    obtain ⟨m, heq, ⟨-, hend⟩ | ⟨hne, hnlast, hm⟩⟩ := s.runOne_presents
    · have := (run_ends_iff hcount hrun).1 hend
      omega
    · have hleft : m.runLeft.toNat = s.micro.runLeft.toNat - 1 := by
        rw [hm]; exact BitVec.toNat_sub_of_le (show 1 ≤ s.micro.runLeft by bv_omega)
      have hmrun : m.runLeft ≠ 0 := by rw [hm]; exact sub_one_ne_zero_of_ne_one hne
      have hroom : ((s.commit s.last).withMicro m).room = s.room - 1 := by
        simp only [State.room, State.withMicro_size, State.withMicro_count, State.commit_size, State.commit_count,
          State.count_add_one hcount]
        omega
      have hnext : (s.count + 1).toNat < s.size.toNat := by
        rw [State.count_add_one hcount]; unfold State.room at hk; omega
      rw [Function.iterate_succ_apply, heq, handshake_runs_on hout hnlast hmrun,
        ih (s := (s.commit s.last).withMicro m) hp hout hnext hmrun (by rw [hroom, State.withMicro_micro]; omega),
        State.withMicro_commitLast, State.withMicro_loopTest, State.withMicro_withMicro]
      rfl

/-- No tag asks for a RUN longer than 62 (R104). -/
theorem runLength_le_of_decodeChunk {bs rest : List Byte} {fn : BitVec 6} (h : decodeChunk bs = .ok (.run fn, rest)) :
    runLength fn ≤ 62 := by
  have hfield : ∀ tag : Byte, classify tag = .run → runLength (tag.extractLsb' 0 6) ≤ 62 := by decide
  rcases bs with _ | ⟨tag, bs⟩
  · simp [decodeChunk] at h
  obtain ⟨htag, rfl⟩ := decodeChunk_run h
  exact hfield tag htag

/-- Once a chunk completes some handshakes take its pixels, and what is left is the chunk-granular outcome. -/
theorem handshakes_complete {s u : State} {i : Instr} (tag : Byte) (m : Micro) (hp : s.phase = .chunk) (hrest : s.AtRest)
    (hcount : s.count.toNat < s.size.toNat) (hi : i.context = .chunk) (hrun : ∀ fn, i = .run fn → runLength fn ≤ 62)
    (hx : exec i s = .next u) : ∃ k, State.handshake^[k] ((s.withMicro m).complete tag i) = u.loopTest := by
  obtain ⟨hm, hout⟩ := hrest
  have hself : (s.withMicro m).withMicro Micro.rest = s := State.withMicro_self hm
  rcases State.complete_cases (tag := tag) (s := s.withMicro m) hp hi with ⟨p, hx', heq⟩ | ⟨fn, rfl, heq⟩
  · have hone : exec i s = .next (s.commit p) := hself ▸ hx'
    rw [hx] at hone
    cases hone
    have hdone : (s.withMicro m).complete tag i = (s.commit p).present.withMicro Micro.rest := by
      rw [← State.withMicro_present, ← State.withMicro_commit, State.withMicro_self hm]
      exact heq.trans (congrArg (fun t => (State.commit t p).present) hself)
    refine ⟨1, ?_⟩
    rw [hdone]
    exact (handshake_takes_last (s := s.commit p) hout rfl).trans (State.withMicro_self (by simpa using hm))
  · obtain ⟨-, rfl⟩ := inPhase_eq_next.1 hx
    have hle := hrun fn rfl
    have hlen : (BitVec.ofNat 6 (runLength fn)).toNat = runLength fn := by rw [BitVec.toNat_ofNat]; omega
    have hne : BitVec.ofNat 6 (runLength fn) ≠ 0 := fun h0 => by rw [h0] at hlen; simp [runLength] at hlen
    obtain ⟨k, hk⟩ : ∃ k, min (runLength fn) s.room = k + 1 :=
      Nat.exists_eq_succ_of_ne_zero (by unfold runLength State.room; omega)
    refine ⟨k + 1, ?_⟩
    rw [heq, hk]
    have hdrain := handshakes_run
      (s := s.withMicro { Micro.rest with tagLatch := tag, runLeft := BitVec.ofNat 6 (runLength fn) })
      hp hout hcount hne (by simpa [State.room, hlen] using hk)
    refine hdrain.trans ?_
    rw [State.withMicro_commitLast, State.withMicro_loopTest, State.withMicro_withMicro,
      State.withMicro_self (by simpa using hm)]

/-- From a chunk boundary some handshakes bring what the chunk-granular step answers for a whole chunk. -/
theorem handshakes_chunk {s u : State} {i : Instr} {rest : List Byte} (hinv : s.Inv) (hp : s.phase = .chunk)
    (hd : decodeChunk s.remaining = .ok (i, rest)) (hx : exec i (s.advance i.length) = .next u) :
    ∃ n, 0 < n ∧ State.handshake^[n] s = u.loopTest := by
  obtain ⟨⟨-, -, ⟨hlt, -⟩, -⟩, hrest⟩ := hinv
  obtain ⟨-, hpos, -⟩ := decodeChunk_consumes hd
  obtain ⟨tag, m, hread⟩ := handshakes_read_chunk hp hrest hd
  obtain ⟨k, hk⟩ := handshakes_complete (s := s.advance i.length) tag m hp hrest (hlt hp)
    (decode_context (c := .chunk) hd) (fun fn hfn => runLength_le_of_decodeChunk (hfn ▸ hd)) hx
  exact ⟨k + i.length, by omega, by rw [Function.iterate_add_apply, hread, hk]⟩

theorem State.advance_remaining_length {s : State} (h : s.CursorInSource) :
    s.advance s.remaining.length = s.exhaust := by
  have hle : s.pos ≤ s.src.length := h
  simp only [State.advance, State.exhaust, State.remaining, List.length_drop, Nat.add_sub_cancel' hle]

/-- A chunk whose bytes are missing: each byte left is latched, and the end of the source raises the error (R116). -/
theorem handshakes_exhaust {s : State} {e : DecodeError} (hinv : s.Inv) (hp : s.phase = .chunk)
    (hd : decodeChunk s.remaining = .error e) :
    ∃ n m, 0 < n ∧ State.handshake^[n] s = (s.exhaust.raise .unexpectedInputEnd).withMicro m := by
  obtain ⟨hpx, hm, hout⟩ := hinv
  obtain ⟨m, hread, -, hrun⟩ := handshakes_latch (xs := s.remaining) (ys := []) hp (by rw [hm]; rfl) hout
    (fun _ => by rw [hm]; rfl) (by simp) (by simpa [hm] using hd)
  rw [State.advance_remaining_length hpx.cursorInSource] at hread
  have hr : (s.exhaust.withMicro m).inReady = true :=
    State.inReady_iff.2 ⟨by simp [State.busy, hp], hrun, hout⟩
  refine ⟨s.remaining.length + 1, m, by omega, ?_⟩
  rw [Function.iterate_succ_apply', hread, State.handshake_of_end hr (by simp [State.remaining]),
    if_pos (show (s.exhaust.withMicro m).phase = .chunk from hp)]
  rfl

/-! ### The bytes of the terminator -/

/-- The micro-state once the bytes `xs` have been counted and compared. -/
def Micro.counted (xs : List Byte) : Micro :=
  { Micro.rest with termCnt := BitVec.ofNat 4 xs.length, termOk := decide (xs = terminator.take xs.length) }

theorem Micro.counted_termCnt {xs : List Byte} (h : xs.length < 16) : (Micro.counted xs).termCnt.toNat = xs.length :=
  Nat.mod_eq_of_lt h

theorem State.compareByte_counted (s : State) {xs : List Byte} (b : Byte) (hlt : xs.length < 8) :
    (s.withMicro (Micro.counted xs)).compareByte b = s.withMicro (Micro.counted (xs ++ [b])) := by
  have hcnt := Micro.counted_termCnt (xs := xs) (by omega)
  have hok : ((Micro.counted xs).termOk && terminator[(Micro.counted xs).termCnt.toNat]? == some b) =
      (Micro.counted (xs ++ [b])).termOk := by
    rw [hcnt, Bool.eq_iff_iff]
    simp [Micro.counted, append_eq_take_terminator rfl hlt]
  have hone : (Micro.counted xs).termCnt + 1 = (Micro.counted (xs ++ [b])).termCnt := by
    simp [Micro.counted, BitVec.ofNat_add]
  simp only [State.compareByte, State.withMicro, hok, hone]
  rfl

/-- After the eighth byte the verdict falls, on whether the bytes are the terminator (R105). -/
theorem State.termByte_counted (s : State) {xs : List Byte} (b : Byte) (hlt : xs.length < 8) :
    (s.withMicro (Micro.counted xs)).termByte b =
      (if xs.length ≠ 7 then s else if xs ++ [b] = terminator then { s with phase := .done } else s.raise .badEnding).withMicro
        (Micro.counted (xs ++ [b])) := by
  have hseven : (Micro.counted xs).termCnt = 7 ↔ xs.length = 7 := by
    rw [← BitVec.toNat_inj, Micro.counted_termCnt (by omega)]; rfl
  have hok (h7 : xs.length = 7) : (Micro.counted (xs ++ [b])).termOk = true ↔ xs ++ [b] = terminator := by
    simp [Micro.counted, h7, terminator]
  have hcmp := State.compareByte_counted s b hlt
  rcases (s.withMicro (Micro.counted xs)).termByte_cases b with ⟨h7, heq⟩ | ⟨h7, ht, heq⟩ | ⟨h7, ht, heq⟩
  · rw [heq, hcmp, if_pos fun h => h7 (hseven.2 h)]
  · rw [hcmp] at ht
    rw [heq, hcmp, if_neg (not_not.2 (hseven.1 h7)), if_pos ((hok (hseven.1 h7)).1 ht)]
    rfl
  · rw [hcmp] at ht
    have hbad : xs ++ [b] ≠ terminator := fun h => Bool.eq_false_iff.1 ht ((hok (hseven.1 h7)).2 h)
    rw [heq, hcmp, if_neg (not_not.2 (hseven.1 h7)), if_neg hbad]
    rfl

/-- With `xs` counted, the handshake of the next byte. -/
theorem handshake_counts {s : State} {xs ys : List Byte} {b : Byte} (hp : s.phase = .term) (hout : s.out = none)
    (hsrc : s.remaining = xs ++ b :: ys) :
    State.handshake ((s.advance xs.length).withMicro (Micro.counted xs)) =
      ((s.advance (xs.length + 1)).withMicro (Micro.counted xs)).termByte b := by
  have hr : ((s.advance xs.length).withMicro (Micro.counted xs)).inReady = true :=
    State.inReady_iff.2 ⟨by simp [State.busy, hp], rfl, hout⟩
  have hbyte : ((s.advance xs.length).withMicro (Micro.counted xs)).remaining = b :: ys := by
    simp [State.remaining_advance, hsrc]
  rw [(State.handshake_of_byte hr hbyte).2 hp, State.withMicro_advance, State.advance_advance]

/-- In TERM each byte before the eighth is counted and compared. -/
theorem handshakes_count {s : State} {xs ys : List Byte} (hp : s.phase = .term) (hrest : s.AtRest)
    (hsrc : s.remaining = xs ++ ys) (hlt : xs.length < 8) :
    State.handshake^[xs.length] s = (s.advance xs.length).withMicro (Micro.counted xs) := by
  induction xs using List.reverseRecOn generalizing ys with
  | nil => exact (State.withMicro_self hrest.1).symm
  | append_singleton xs b ih =>
    rw [List.length_append, List.length_singleton] at hlt ⊢
    rw [List.append_assoc, List.singleton_append] at hsrc
    rw [Function.iterate_succ_apply', ih hsrc (by omega), handshake_counts hp hrest.2 hsrc,
      State.termByte_counted _ b (by omega), if_pos (by omega)]

/-- With eight bytes left the verdict on them falls after eight handshakes. -/
theorem handshakes_verdict {s : State} (hp : s.phase = .term) (hrest : s.AtRest) (hlen : 8 ≤ s.remaining.length) :
    State.handshake^[8] s =
      (if s.remaining.take 8 = terminator then { s.advance 8 with phase := .done }
        else (s.advance 8).raise .badEnding).withMicro (Micro.counted (s.remaining.take 8)) := by
  obtain ⟨xs, b, hxs⟩ := (List.eq_nil_or_concat' (s.remaining.take 8)).resolve_left
    (List.ne_nil_of_length_pos (by rw [List.length_take]; omega))
  have h7 : xs.length = 7 := by
    have := congrArg List.length hxs
    simp at this
    omega
  have hsrc : s.remaining = xs ++ b :: s.remaining.drop 8 := by
    rw [List.append_cons, ← hxs, List.take_append_drop]
  have hcount := handshakes_count hp hrest hsrc (by omega)
  have hbyte := handshake_counts hp hrest.2 hsrc
  rw [State.termByte_counted _ b (by omega), if_neg (not_not.2 h7), h7, ← hxs] at hbyte
  rw [Function.iterate_succ_apply', ← h7, hcount, h7, hbyte]

/-- With fewer than eight bytes left the end of the source is the verdict (R106). -/
theorem handshakes_short {s : State} (hp : s.phase = .term) (hrest : s.AtRest) (hlen : s.remaining.length < 8) :
    State.handshake^[s.remaining.length + 1] s =
      ((s.advance s.remaining.length).raise .badEnding).withMicro (Micro.counted s.remaining) := by
  have hr : ((s.advance s.remaining.length).withMicro (Micro.counted s.remaining)).inReady = true :=
    State.inReady_iff.2 ⟨by simp [State.busy, hp], rfl, hrest.2⟩
  rw [Function.iterate_succ_apply', handshakes_count hp hrest (by simp : s.remaining = s.remaining ++ []) hlen,
    State.handshake_of_end hr (by simp [State.remaining_advance]), if_neg (by simp [hp])]
  rfl

/-! ### The step -/

/-- From a chunk boundary some handshakes bring what the step answers, but for the micro-state, which is at rest where a chunk
completed and has counted the terminator in DONE. -/
theorem handshakes_step {s t : State} (hinv : s.Inv) (hb : s.busy = true) (hc : s.cmd = none) (h : step s = .next t) :
    ∃ n m, 0 < n ∧ State.handshake^[n] s = t.withMicro m ∧ (t.phase = .chunk ∨ t.phase = .term → m = Micro.rest) ∧
      (t.phase = .done → m = { Micro.rest with termCnt := 8 }) := by
  obtain ⟨hpx, hrest⟩ := id hinv
  obtain ⟨-, hrest'⟩ := stepKeepsInvariant s t hinv h
  rcases step_inversion hc h with ⟨hb', -⟩ | ⟨hp, hf, rfl⟩ | ⟨hp, i, rest, u, hd, hi, hx, rfl⟩ | ⟨hp, hterm, rfl⟩ |
    ⟨hp, hterm, rfl⟩
  · simp [hb] at hb'
  · obtain ⟨e, hd⟩ := (State.fetch_exhausted_iff hp).1 hf
    obtain ⟨n, m, hn, hreach⟩ := handshakes_exhaust hinv hp hd
    exact ⟨n, m, hn, hreach, by simp, by simp⟩
  · obtain ⟨n, hn, hreach⟩ := handshakes_chunk hinv hp hd hx
    refine ⟨n, Micro.rest, hn, by rw [hreach, State.withMicro_self hrest'.1], fun _ => rfl, fun hdone => ?_⟩
    rw [State.loopTest_phase, (exec_chunk_phase hi hx).2] at hdone
    split at hdone <;> cases hdone
  · have hlen := length_of_take_eq_terminator hterm
    refine ⟨8, Micro.counted terminator, by omega, ?_, by simp, fun _ => rfl⟩
    rw [handshakes_verdict hp hrest hlen, if_pos hterm, hterm, Nat.min_eq_left hlen]
  · by_cases hlen : 8 ≤ s.remaining.length
    · refine ⟨8, Micro.counted (s.remaining.take 8), by omega, ?_, by simp, by simp⟩
      rw [handshakes_verdict hp hrest hlen, if_neg hterm, Nat.min_eq_left hlen]
    · refine ⟨s.remaining.length + 1, Micro.counted s.remaining, by omega, ?_, by simp, by simp⟩
      rw [handshakes_short hp hrest (by omega), Nat.min_eq_right (by omega)]

/-- Settles O52: the handshakes latch a chunk's bytes and take its pixels, or count the terminator's. -/
theorem handshakesRefineStep : Obligations.HandshakesRefineStep := by
  intro s t hinv hb hc h
  obtain ⟨-, hrest, -⟩ := stepKeepsInvariant s t hinv h
  obtain ⟨n, m, -, hreach, hchunk, hdone⟩ := handshakes_step hinv hb hc h
  refine ⟨n, ?_, ?_, ?_⟩ <;> rw [hreach]
  · exact State.withMicro_self hrest
  · exact hchunk
  · exact hdone

end Sys2Proof.Machine
end

section
/-!
PROOFS. Whatever the schedule, the outcome of a decode is that of the steps (spec 10_state.md R22,
70_reset_and_hazards.md R146).
-/

namespace Sys2Proof.Machine

open Sys2Proof

/-- An input or output event is the one handshake that can happen, or it changes nothing. -/
theorem State.event_eq_self_or_handshake (s : State) {e : PortEvent} (he : e = .input ∨ e = .output) :
    s.event e = s ∨ s.event e = s.handshake := by
  rcases he with rfl | rfl
  · rcases s.inputEvent_cases with ⟨-, heq⟩ | ⟨hr, -⟩ | ⟨b, hr, -⟩
    · exact .inl heq
    all_goals
      obtain ⟨-, -, hout⟩ := State.inReady_iff.1 hr
      exact .inr (State.handshake_of_free hout).symm
  · cases ho : s.out with
    | none => exact .inl (by simp [State.event, State.outputEvent, ho])
    | some p => exact .inr (State.handshake_of_out ho).symm

/-- A schedule of offers and acceptances makes some number of handshakes. -/
theorem State.events_eq_handshakes {es : List PortEvent} (s : State) (hes : ∀ e ∈ es, e = .input ∨ e = .output) :
    ∃ n, s.events es = State.handshake^[n] s := by
  induction es generalizing s with
  | nil => exact ⟨0, rfl⟩
  | cons e es ih =>
    obtain ⟨he, hes⟩ := List.forall_mem_cons.1 hes
    obtain ⟨n, hn⟩ := ih (s.event e) hes
    have hcons : s.events (e :: es) = (s.event e).events es := rfl
    rcases s.event_eq_self_or_handshake he with heq | heq
    · exact ⟨n, by rw [hcons, hn, heq]⟩
    · exact ⟨n + 1, by rw [hcons, hn, heq, Function.iterate_succ_apply]⟩

theorem State.PortInv.handshakes {s : State} (h : s.PortInv) (n : Nat) : (State.handshake^[n] s).PortInv := by
  induction n with
  | zero => exact h
  | succ n ih =>
    rw [Function.iterate_succ_apply', State.handshake]
    split
    · exact ih.output
    · exact ih.input

/-- Nothing is presented once the decode is over. -/
theorem State.PortInv.out_of_not_busy {s : State} (h : s.PortInv) (hb : s.busy = false) : s.out = none := by
  obtain ⟨-, -, hout⟩ := h
  by_contra hne
  have := (hout (Option.isSome_iff_ne_none.2 hne)).1
  simp [hb] at this

/-- No handshake can happen once the decode is over. -/
theorem State.PortInv.handshake_of_not_busy {s : State} (h : s.PortInv) (hb : s.busy = false) : s.handshake = s := by
  rw [State.handshake_of_free (h.out_of_not_busy hb)]
  rcases s.inputEvent_cases with ⟨-, heq⟩ | ⟨hr, -⟩ | ⟨b, hr, -⟩
  · exact heq
  all_goals
    have := (State.inReady_iff.1 hr).1
    simp [hb] at this

/-- Once the decode is over after `n` handshakes, more of them change nothing. -/
theorem State.PortInv.handshakes_stable {s : State} {n n' : Nat} (h : s.PortInv)
    (hb : (State.handshake^[n] s).busy = false) (hle : n ≤ n') : State.handshake^[n'] s = State.handshake^[n] s := by
  obtain ⟨d, rfl⟩ := Nat.exists_eq_add_of_le' hle
  rw [Function.iterate_add_apply]
  exact Function.iterate_fixed ((h.handshakes n).handshake_of_not_busy hb) d

theorem State.Inv.portInv {s : State} (h : s.Inv) : s.PortInv := by
  obtain ⟨hpx, hm, hout⟩ := h
  exact hpx.portInv (by rw [hm]; rfl) hout

/-- Handshakes that end a decode end where some number of steps does, but for the micro-state: each step is a positive number
of handshakes, and where a step's handshakes are more than there are, the decode was already over. -/
theorem runSteps_of_handshakes {n : Nat} {s : State} (hinv : s.Inv) (hb : s.busy = true) (hc : s.cmd = none)
    (hover : (State.handshake^[n] s).busy = false) :
    ∃ k t m, runSteps k s = .next t ∧ State.handshake^[n] s = t.withMicro m := by
  induction n using Nat.strongRecOn generalizing s with
  | ind n ih =>
    obtain ⟨t, ht⟩ := step_answers s
    obtain ⟨j, m, hj, hreach, hrest, -⟩ := handshakes_step hinv hb hc ht
    have hrun (k : Nat) : runSteps (k + 1) s = runSteps k t := by rw [runSteps, ht]
    by_cases hle : n ≤ j
    · exact ⟨1, t, m, hrun 0, by rw [← hinv.portInv.handshakes_stable hover hle, hreach]⟩
    · cases hbt : t.busy with
      | false =>
        have hover' : (State.handshake^[j] s).busy = false := by rw [hreach]; exact hbt
        exact ⟨1, t, m, hrun 0, by rw [hinv.portInv.handshakes_stable hover' (by omega), hreach]⟩
      | true =>
        have hinv' := stepKeepsInvariant s t hinv ht
        obtain ⟨-, hmicro, -⟩ := id hinv'
        obtain ⟨-, -, hcmd, -⟩ := step_samePorts hc ht
        have hm : m = Micro.rest := hrest (by simpa [State.busy] using hbt)
        rw [hm, State.withMicro_self hmicro] at hreach
        have hsplit : State.handshake^[n] s = State.handshake^[n - j] t := by
          rw [← hreach, ← Function.iterate_add_apply, Nat.sub_add_cancel (by omega)]
        obtain ⟨k, u, m', hk, hreach'⟩ := ih (n - j) (by omega) hinv' hbt (hcmd.trans hc) (hsplit ▸ hover)
        exact ⟨k + 1, u, m', (hrun k).trans hk, hsplit.trans hreach'⟩

/-- Settles O53: the schedule makes some number of handshakes, and those are the handshakes of steps. -/
theorem scheduleDoesNotMatter : Obligations.ScheduleDoesNotMatter := by
  intro s es hinv hb hc hes hover
  obtain ⟨n, hn⟩ := s.events_eq_handshakes hes
  rw [hn] at hover ⊢
  obtain ⟨k, t, m, hk, hreach⟩ := runSteps_of_handshakes hinv hb hc hover
  have hout := (hinv.portInv.handshakes n).out_of_not_busy hover
  rw [hreach] at hout ⊢
  exact ⟨k, t, hk, rfl, rfl, rfl, rfl, rfl, hout⟩

end Sys2Proof.Machine
end

section
/-!
PROOFS. The encoder and the decoder undo each other (spec 30_encoding.md R50 to R58).
-/

namespace Sys2Proof.Machine

open Sys2Proof

theorem length_encode (i : Instr) : (encode i).length = i.length := by cases i <;> rfl

/-! ### Encoding, then decoding -/

theorem classify_index_tag : ∀ idx : Slot, classify (0b00#2 ++ idx) = .index := by decide

theorem classify_diff_tag : ∀ fr fg fb : BitVec 2, classify (0b01#2 ++ fr ++ fg ++ fb) = .diff := by decide

theorem classify_luma_tag : ∀ fg : BitVec 6, classify (0b10#2 ++ fg) = .luma := by decide

/-- The run fields 62 and 63 would make the tags of RGB and RGBA (R52, R104). -/
theorem classify_run_tag : ∀ fn : BitVec 6, fn.toNat ≤ 61 → classify (0b11#2 ++ fn) = .run := by decide

/-- The six bits below a tag's top two are read back. -/
theorem tag_field (top : BitVec 2) (f : BitVec 6) : (top ++ f : Byte).extractLsb' 0 6 = f :=
  BitVec.extractLsb'_append_eq_right

theorem diff_fields : ∀ fr fg fb : BitVec 2,
    (0b01#2 ++ fr ++ fg ++ fb : Byte).extractLsb' 4 2 = fr ∧ (0b01#2 ++ fr ++ fg ++ fb : Byte).extractLsb' 2 2 = fg ∧
      (0b01#2 ++ fr ++ fg ++ fb : Byte).extractLsb' 0 2 = fb := by decide

theorem luma_fields (frg fbg : BitVec 4) :
    (frg ++ fbg : Byte).extractLsb' 4 4 = frg ∧ (frg ++ fbg : Byte).extractLsb' 0 4 = fbg :=
  ⟨BitVec.extractLsb'_append_eq_left, BitVec.extractLsb'_append_eq_right⟩

theorem decodeChunk_encode {i : Instr} (hwf : i.wf = true) (hi : i.context = .chunk) (rest : List Byte) :
    decodeChunk (encode i ++ rest) = .ok (i, rest) := by
  cases i with
  | rgb r g b => rfl
  | rgba r g b a => rfl
  | index idx => simp [encode, decodeChunk, classify_index_tag, tag_field]
  | diff fr fg fb => simp [encode, decodeChunk, classify_diff_tag, diff_fields]
  | luma fg frg fbg => simp [encode, decodeChunk, classify_luma_tag, tag_field, luma_fields]
  | run fn =>
    have hfn : fn.toNat ≤ 61 := by simpa [Instr.wf] using hwf
    simp [encode, decodeChunk, classify_run_tag fn hfn, tag_field]
  | endMark bytes => cases hi

/-- What `encode` lays out the decoder reads back in its context; an END of fewer than eight bytes must be the last (log 8). -/
theorem decode_encode {i : Instr} {rest : List Byte} (hwf : i.wf = true)
    (hend : ∀ bytes, i = .endMark bytes → bytes.length = 8 ∨ rest = []) :
    decode i.context (encode i ++ rest) = .ok (i, rest) := by
  cases i with
  | endMark bytes =>
    have hle : bytes.length ≤ 8 := by simpa [Instr.wf] using hwf
    rcases hend bytes rfl with hlen | rfl
    · simp [decode, encode, Instr.context, ← hlen]
    · simp [decode, encode, Instr.context, List.take_of_length_le hle, hle]
  | _ => exact decodeChunk_encode hwf rfl rest

/-! ### Decoding, then encoding -/

/-- A tag is laid out from its opcode and its fields (R52, R54). -/
theorem tag_of_classify : ∀ tag : Byte,
    (classify tag = .rgb → 0xFE = tag) ∧ (classify tag = .rgba → 0xFF = tag) ∧
      (classify tag = .index → 0b00#2 ++ tag.extractLsb' 0 6 = tag) ∧
      (classify tag = .diff →
        0b01#2 ++ tag.extractLsb' 4 2 ++ tag.extractLsb' 2 2 ++ tag.extractLsb' 0 2 = tag) ∧
      (classify tag = .luma → 0b10#2 ++ tag.extractLsb' 0 6 = tag) ∧
      (classify tag = .run → 0b11#2 ++ tag.extractLsb' 0 6 = tag) := by decide

theorem luma_byte (x : Byte) : x.extractLsb' 4 4 ++ x.extractLsb' 0 4 = x :=
  BitVec.extractLsb'_append_extractLsb' (w := 4) (len := 4)

/-- No bit of a chunk read is dropped (R57). -/
theorem encode_of_decodeChunk {bs rest : List Byte} {i : Instr} (h : decodeChunk bs = .ok (i, rest)) :
    bs = encode i ++ rest := by
  rcases bs with _ | ⟨tag, bs⟩
  · simp [decodeChunk] at h
  obtain ⟨hrgb, hrgba, hindex, hdiff, hluma, hrun⟩ := tag_of_classify tag
  cases hop : classify tag <;> simp only [decodeChunk, hop] at h
  case rgb =>
    rcases bs with _ | ⟨r, _ | ⟨g, _ | ⟨b, bs⟩⟩⟩ <;> cases h
    rw [← hrgb hop]; rfl
  case rgba =>
    rcases bs with _ | ⟨r, _ | ⟨g, _ | ⟨b, _ | ⟨a, bs⟩⟩⟩⟩ <;> cases h
    rw [← hrgba hop]; rfl
  case index => cases h; rw [encode, hindex hop]; rfl
  case diff => cases h; rw [encode, hdiff hop]; rfl
  case luma => rcases bs with _ | ⟨x, bs⟩ <;> cases h; rw [encode, hluma hop, luma_byte]; rfl
  case run => cases h; rw [encode, hrun hop]; rfl

theorem encode_of_decode {c : Context} {bs rest : List Byte} {i : Instr} (h : decode c bs = .ok (i, rest)) :
    bs = encode i ++ rest := by
  cases c with
  | chunk => exact encode_of_decodeChunk h
  | term => cases h; exact (List.take_append_drop 8 bs).symm

/-- What the decoder reads is well formed: a RUN's tag is no literal's, and END takes at most eight bytes (R57, R104). -/
theorem wf_of_decode {c : Context} {bs rest : List Byte} {i : Instr} (h : decode c bs = .ok (i, rest)) :
    i.wf = true := by
  cases c with
  | term => cases h; simp [Instr.wf]
  | chunk =>
    cases i with
    | run fn =>
      have hlen : fn.toNat + 1 ≤ 62 := runLength_le_of_decodeChunk h
      simp only [Instr.wf, decide_eq_true_eq]
      omega
    | endMark bytes => cases decode_context h
    | _ => rfl

end Sys2Proof.Machine
end

section
/-!
PROOFS. What a fetch takes from the source and what it does not look at (spec 20_memory.md R33, R42).
-/

namespace Sys2Proof.Machine

open Sys2Proof

/-- Settles O30: the bytes decoded are the instruction's encoding, which is as long as the cursor moves. -/
theorem fetchConsumesExactlyTheInstruction : Obligations.FetchConsumesExactlyTheInstruction := by
  intro s s' i h
  obtain ⟨c, rest, -, hd, rfl⟩ := State.fetch_eq_instr h
  have henc := encode_of_decode hd
  refine ⟨rfl, ?_⟩
  rw [State.remaining_advance, henc, ← length_encode, List.drop_left]

/-! ### The source as data -/

/-- `s` with another byte source and another cursor. -/
def State.mapSource (s : State) (f : List Byte → List Byte) (g : Nat → Nat) : State :=
  { s with src := f s.src, pos := g s.pos }

theorem State.advance_eq_mapSource (s : State) (n : Nat) : s.advance n = s.mapSource id (· + n) := rfl

theorem State.mapSource_commitLast (s : State) (f : List Byte → List Byte) (g : Nat → Nat) (m : Nat) :
    (s.mapSource f g).commitLast m = (s.commitLast m).mapSource f g := by
  induction m generalizing s with
  | zero => rfl
  | succ m ih => exact ih (s.commit s.last)

theorem State.mapSource_loopTest (s : State) (f : List Byte → List Byte) (g : Nat → Nat) :
    (s.mapSource f g).loopTest = s.loopTest.mapSource f g :=
  (apply_ite (State.mapSource · f g) (s.phase = .chunk ∧ s.count = s.size) { s with phase := .term } s).symm

/-- No instruction reads the source or the cursor: its bytes are consumed before. -/
theorem exec_mapSource {i : Instr} {s t : State} (f : List Byte → List Byte) (g : Nat → Nat) (h : exec i s = .next t) :
    exec i (s.mapSource f g) = .next (t.mapSource f g) := by
  cases i <;>
    simp only [exec, execRgb, execRgba, execIndex, execDiff, execLuma, execRun, execEnd, inPhase_eq_next] at h ⊢ <;>
    obtain ⟨hp, rfl⟩ := h
  case run fn => exact ⟨hp, (s.mapSource_commitLast f g _).symm⟩
  case endMark bytes => exact ⟨hp, by split <;> rfl⟩
  all_goals exact ⟨hp, rfl⟩

/-! ### The step of an instruction read -/

/-- A fetch answers what is decoded in the phase's context. -/
theorem State.fetch_of_decode {s : State} {c : Context} {i : Instr} {rest : List Byte} (h : InContext c s)
    (hd : decode c s.remaining = .ok (i, rest)) : s.fetch = .instr i (s.advance i.length) := by
  rcases h with ⟨rfl, hp⟩ | ⟨rfl, hp⟩ <;> simp [State.fetch, State.fetchIn, hp, hd]

/-- The step of a well-formed instruction whose encoding stands at the cursor is its meaning, its bytes consumed, and the
loop test (R70). -/
theorem step_of_encode {s u : State} {i : Instr} {rest : List Byte} (hc : s.cmd = none) (hctx : InContext i.context s)
    (hwf : i.wf = true) (hend : ∀ bytes, i = .endMark bytes → bytes.length = 8 ∨ rest = [])
    (hsrc : s.remaining = encode i ++ rest) (hx : exec i (s.advance i.length) = .next u) : step s = .next u.loopTest := by
  have hf : s.fetch = .instr i (s.advance i.length) := State.fetch_of_decode hctx (hsrc ▸ decode_encode hwf hend)
  simp only [step, hc, hf, hx, settle]

theorem step_of_fetch {s s' t : State} {i : Instr} (hc : s.cmd = none) (hf : s.fetch = .instr i s')
    (h : step s = .next t) : ∃ u, exec i s' = .next u ∧ t = u.loopTest := by
  simp only [step, hc, hf] at h
  exact settle_eq_next.1 h

/-- Lists that agree up to place `m + n` agree on the `n` elements from place `m`. -/
theorem take_drop_of_take_eq {α : Type} {xs ys : List α} {m n : Nat} (h : xs.take (m + n) = ys.take (m + n)) :
    (xs.drop m).take n = (ys.drop m).take n := by
  rw [List.take_drop, h, List.take_drop]

/-- Settles O31: up to the instruction's end both sources hold its encoding, and its meaning reads no source. -/
theorem noLookAhead : Obligations.NoLookAhead := by
  intro s s' t i src hc hf hend hagree h
  obtain ⟨u, hx, rfl⟩ := step_of_fetch hc hf h
  obtain ⟨c, rest, hctx, hd, rfl⟩ := State.fetch_eq_instr hf
  obtain rfl := decode_context hd
  have htake : (src.drop s.pos).take i.length = s.remaining.take i.length := take_drop_of_take_eq hagree
  rw [encode_of_decode hd, ← length_encode, List.take_left] at htake
  obtain ⟨more, hsrc⟩ := List.prefix_iff_eq_take.2 htake.symm
  have hx' := exec_mapSource (fun _ => src) id hx
  have hstep := step_of_encode (s := s.mapSource (fun _ => src) id) hc hctx (wf_of_decode hd)
    (fun bytes hi => .inl (hend bytes hi)) hsrc.symm hx'
  rwa [State.mapSource_loopTest] at hstep

end Sys2Proof.Machine
end

section
/-!
PROOFS. A stream of chunk encodings and the terminator, read from START (spec 20_memory.md R33,
40_main_loop_and_commit.md R70, 45_termination_and_start.md R105, R108).
-/

namespace Sys2Proof.Machine

open Sys2Proof

/-! ### Chunks executed without a fetch -/

theorem exec_advance {i : Instr} {s t : State} (n : Nat) (h : exec i s = .next t) :
    exec i (s.advance n) = .next (t.advance n) := by
  rw [State.advance_eq_mapSource, State.advance_eq_mapSource]
  exact exec_mapSource id (· + n) h

theorem LeadsTo.advance {is : List Instr} {s t : State} (n : Nat) (h : LeadsTo is s t) :
    LeadsTo is (s.advance n) (t.advance n) := by
  induction is generalizing s with
  | nil => exact congrArg (State.advance · n) h
  | cons i is ih =>
    obtain ⟨hlt, u, hx, hrest⟩ := h
    exact ⟨hlt, u.advance n, exec_advance n hx, ih hrest⟩

theorem SamePorts.trans {s t u : State} (h : SamePorts s t) (h' : SamePorts t u) : SamePorts s u := by
  obtain ⟨hsize, hsrc, hcmd, hmicro, hout⟩ := h
  rwa [SamePorts, hsize, hsrc, hcmd, hmicro, hout] at h'

/-- Chunks write no port and leave cursor and phase to the step. -/
theorem LeadsTo.frame {is : List Instr} {s t : State} (his : ∀ i ∈ is, i.context = .chunk) (h : LeadsTo is s t) :
    SamePorts s t ∧ t.pos = s.pos ∧ t.phase = s.phase := by
  induction is generalizing s with
  | nil => rw [show t = s from h]; exact ⟨⟨rfl, rfl, rfl, rfl, rfl⟩, rfl, rfl⟩
  | cons i is ih =>
    obtain ⟨hi, his⟩ := List.forall_mem_cons.1 his
    obtain ⟨-, u, hx, hrest⟩ := h
    obtain ⟨p, m, hchunk, hpos, hphase, -⟩ := exec_produces hi hx
    obtain ⟨hports, hpos', hphase'⟩ := ih his hrest
    exact ⟨hchunk.ports.trans hports, hpos'.trans hpos, hphase'.trans hphase⟩

/-! ### Chunks fetched from the source -/

theorem State.loopTest_of_required {s : State} (h : s.count.toNat < s.size.toNat) : s.loopTest = s :=
  if_neg fun ⟨_, heq⟩ => absurd (congrArg BitVec.toNat heq) (Nat.ne_of_lt h)

/-- Where the encodings of chunks stand at the cursor, as many steps execute them, the loop test after each (R70). -/
theorem runSteps_of_leadsTo {is : List Instr} {s u : State} {rest : List Byte}
    (his : ∀ i ∈ is, i.wf = true ∧ i.context = .chunk) (hp : s.phase = .chunk) (hc : s.cmd = none)
    (hsrc : s.remaining = is.flatMap encode ++ rest) (h : LeadsTo is s u) :
    runSteps is.length s.loopTest = .next (u.advance (is.flatMap encode).length).loopTest := by
  induction is generalizing s u with
  | nil => rw [show u = s from h]; rfl
  | cons i is ih =>
    obtain ⟨⟨hwf, hi⟩, his⟩ := List.forall_mem_cons.1 his
    obtain ⟨hlt, v, hx, hrest⟩ := h
    rw [List.flatMap_cons, List.append_assoc] at hsrc
    have hstep : step s = .next (v.advance i.length).loopTest :=
      step_of_encode hc (.inl ⟨hi, hp⟩) hwf (fun bytes hb => by rw [hb] at hi; cases hi) hsrc (exec_advance _ hx)
    obtain ⟨p, m, hchunk, hpos, hphase, -⟩ := exec_produces hi hx
    obtain ⟨-, hsrc', hcmd, -⟩ := hchunk.ports
    have hremaining : (v.advance i.length).remaining = is.flatMap encode ++ rest := by
      rw [State.remaining_advance, State.remaining, hsrc', hpos, ← State.remaining, hsrc, ← length_encode,
        List.drop_left]
    have hrun := ih (s := v.advance i.length) his (hphase.trans hp) (hcmd.trans hc) hremaining (hrest.advance _)
    rw [State.loopTest_of_required hlt, List.length_cons, runSteps, hstep, List.flatMap_cons,
      List.length_append, length_encode, ← State.advance_advance]
    exact hrun

/-- In TERM the terminator's eight bytes at the cursor end the decode; what stands behind them stays (R105, R108). -/
theorem step_of_terminator {s : State} {junk : List Byte} (hc : s.cmd = none) (hp : s.phase = .term)
    (hsrc : s.remaining = terminator ++ junk) : step s = .next { s.advance 8 with phase := .done } :=
  step_of_encode (i := .endMark terminator) hc (.inr ⟨rfl, hp⟩) rfl (fun bytes h => by cases h; exact .inl rfl) hsrc
    (inPhase_eq_next.2 ⟨hp, rfl⟩)

theorem runSteps_add {k : Nat} {s t : State} (n : Nat) (h : runSteps k s = .next t) :
    runSteps (k + n) s = runSteps n t := by
  induction k generalizing s with
  | zero => cases h; rw [Nat.zero_add]
  | succ k ih =>
    rw [Nat.succ_add, runSteps]
    rw [runSteps] at h
    split at h
    next u hu => exact ih h
    all_goals cases h

/-- The chunks of a whole decode lead from START to TERM: START of no pixels, with no chunk, is there already. -/
theorem runSteps_of_start {is : List Instr} {size : Count} {src rest : List Byte} {u : State}
    (his : ∀ i ∈ is, i.wf = true ∧ i.context = .chunk) (hsrc : src = is.flatMap encode ++ rest)
    (h : LeadsTo is (State.start size src) u) (hcount : u.count = size) :
    runSteps is.length (State.start size src) =
      .next { u with phase := .term, pos := (is.flatMap encode).length } := by
  obtain ⟨⟨hsize, -⟩, hpos, hphase⟩ := h.frame fun i hi => (his i hi).2
  rcases State.start_phase_cases size src with ⟨rfl, hp⟩ | ⟨hpos', hp⟩
  · cases is with
    | nil => rw [show u = State.start 0 src from h]; rfl
    | cons i is => exact absurd h.1 (by simp)
  · have hrun := runSteps_of_leadsTo his hp rfl hsrc h
    rw [State.loopTest_of_required (by simpa using hpos')] at hrun
    have hend : (u.advance (is.flatMap encode).length).loopTest =
        { u.advance (is.flatMap encode).length with phase := .term } :=
      if_pos ⟨hphase.trans hp, hcount.trans hsize.symm⟩
    rw [hrun, hend, State.advance, hpos, State.start_pos, Nat.zero_add]

/-- Settles O45: a step for each chunk leads to TERM, where the terminator stands at the cursor. -/
theorem streamOfChunksDecodes : Obligations.StreamOfChunksDecodes := by
  intro is size src junk u his hsrc h hcount
  rw [List.append_assoc] at hsrc
  obtain ⟨⟨-, hsrc', hcmd, -⟩, -⟩ := h.frame fun i hi => (his i hi).2
  have hbytes : u.src.drop (is.flatMap encode).length = terminator ++ junk := by
    rw [hsrc', State.start_src, hsrc, List.drop_left]; rfl
  have hstep := step_of_terminator (s := { u with phase := .term, pos := (is.flatMap encode).length }) hcmd rfl hbytes
  rw [runSteps_add 1 (runSteps_of_start his hsrc h hcount), runSteps, hstep]
  rfl

end Sys2Proof.Machine
end

section
/-!
PROOFS. The ports: the output word, the input signals, and what an input or output event may do to the output (spec
20_memory.md R34, R38, R42).
-/

namespace Sys2Proof.Machine

open Sys2Proof

/-! ### The signals -/

/-- Bits above an appended byte are those of the word it was appended to. -/
theorem extract_above_byte {w : Nat} (x : BitVec w) (c : Byte) (k : Nat) :
    (x ++ c).extractLsb' (k + 8) 8 = x.extractLsb' k 8 := by
  rw [BitVec.extractLsb'_append_eq_of_le (Nat.le_add_left 8 k), Nat.add_sub_cancel]

/-- The bytes of the output word are the channels, red most significant (R38). -/
theorem pack_channels (p : Pixel) :
    (pack p).extractLsb' 24 8 = p.r ∧ (pack p).extractLsb' 16 8 = p.g ∧ (pack p).extractLsb' 8 8 = p.b ∧
      (pack p).extractLsb' 0 8 = p.a := by
  unfold pack
  refine ⟨?_, ?_, ?_, BitVec.extractLsb'_append_eq_right⟩
  · rw [extract_above_byte _ _ 16, extract_above_byte _ _ 8, extract_above_byte _ _ 0, BitVec.extractLsb'_eq_self]
  · rw [extract_above_byte _ _ 8, extract_above_byte _ _ 0, BitVec.extractLsb'_append_eq_right]
  · rw [extract_above_byte _ _ 0, BitVec.extractLsb'_append_eq_right]

/-- Settles O47: the word on the port is the pending pixel packed. -/
theorem outputWordPacking : Obligations.OutputWordPacking := fun s p h =>
  ⟨pack p, by rw [State.outPixel, h]; rfl, pack_channels p⟩

theorem State.busy_iff {s : State} : s.busy = true ↔ s.phase = .chunk ∨ s.phase = .term := by simp [State.busy]

theorem State.inValid_iff {s : State} : s.inValid = true ↔ s.inData.isSome = true := by
  simp [State.inValid, State.inData]

/-- Settles O48: readiness asks for exactly a busy block, no RUN left and a free output, and `in_eos` is `in_valid` negated. -/
theorem inputSignals : Obligations.InputSignals := by
  intro s
  refine ⟨fun hr => ?_, fun hb hrun hout => State.inReady_iff.2 ⟨hb, hrun, hout⟩, fun ⟨hv, he⟩ => ?_, State.inValid_iff⟩
  · obtain ⟨hb, hrun, -⟩ := State.inReady_iff.1 hr
    exact ⟨State.busy_iff.1 hb, hrun⟩
  · simp [State.inEos, hv] at he

/-- Settles O49: either event is the one handshake that can happen, or nothing. -/
theorem eventsWaitOrHandshake : Obligations.EventsWaitOrHandshake := fun s =>
  ⟨s.event_eq_self_or_handshake (.inl rfl), s.event_eq_self_or_handshake (.inr rfl)⟩

/-! ### What an event commits -/

/-- `t` has one pixel more than `s`, and presents it. -/
def Presents (s t : State) : Prop := ∃ p, t.pixels = s.pixels ++ [p] ∧ t.out = some p

theorem presents_commit (s : State) (p : Pixel) (m : Micro) : Presents s ((s.commit p).present.withMicro m) :=
  ⟨p, by simp, by simp⟩

/-- A byte of a chunk is latched, the output left alone, or it completes the chunk, whose pixel is presented. -/
theorem State.chunkByte_presents {s : State} (hp : s.phase = .chunk) (b : Byte) :
    (s.chunkByte b).pixels = s.pixels ∧ (s.chunkByte b).out = s.out ∨ Presents s (s.chunkByte b) := by
  rcases s.chunkByte_cases b with ⟨i, rest, hd, heq⟩ | ⟨e, -, heq⟩ <;> rw [heq]
  · obtain ⟨p, m, hcomplete, -⟩ := State.complete_presents
      (tag := if s.micro.tagLatch = 0 then b else s.micro.tagLatch) hp (decode_context (c := .chunk) hd)
    rw [hcomplete]
    exact .inr (presents_commit s p m)
  · exact .inl ⟨rfl, rfl⟩

/-- A byte of the terminator commits nothing. -/
theorem State.termByte_commits_nothing (s : State) (b : Byte) :
    (s.termByte b).pixels = s.pixels ∧ (s.termByte b).out = s.out := by
  rcases s.termByte_cases b with ⟨-, heq⟩ | ⟨-, -, heq⟩ | ⟨-, -, heq⟩ <;> rw [heq] <;> exact ⟨rfl, rfl⟩

/-- An input event leaves the output alone, or presents one pixel on a free port. -/
theorem State.inputEvent_presents (s : State) :
    s.inputEvent.pixels = s.pixels ∧ s.inputEvent.out = s.out ∨ Presents s s.inputEvent ∧ s.out = none := by
  rcases s.inputEvent_cases with ⟨-, heq⟩ | ⟨-, -, heq⟩ | ⟨b, hr, -, ⟨hp, heq⟩ | ⟨-, heq⟩⟩ <;> rw [heq]
  · exact .inl ⟨rfl, rfl⟩
  · exact .inl ⟨rfl, rfl⟩
  · obtain ⟨-, -, hfree⟩ := State.inReady_iff.1 hr
    exact (State.chunkByte_presents (s := s.advance 1) hp b).imp_right fun h => ⟨h, hfree⟩
  · exact .inl ((s.advance 1).termByte_commits_nothing b)

/-- An output event leaves the output alone, frees the port, or presents the next pixel of a RUN. -/
theorem State.outputEvent_presents (s : State) :
    s.outputEvent.pixels = s.pixels ∧ (s.outputEvent.out = s.out ∨ s.outputEvent.out = none) ∨
      Presents s s.outputEvent := by
  rcases s.outputEvent_cases with ⟨-, heq⟩ | ⟨-, -, heq⟩ | ⟨-, -, heq⟩ <;> rw [heq]
  · exact .inl ⟨rfl, .inl rfl⟩
  · exact .inl ⟨rfl, .inr rfl⟩
  · obtain ⟨m, hrun, -⟩ := State.runOne_presents { s with out := none }
    rw [hrun]
    exact .inr (presents_commit { s with out := none } s.last m)

/-- Settles O50: what the input and the output event present. -/
theorem eachCommitIsPresentedOnce : Obligations.EachCommitIsPresentedOnce := by
  rintro s e (rfl | rfl)
  · rcases s.inputEvent_presents with ⟨hpx, hout⟩ | ⟨⟨p, hpx, hout⟩, hfree⟩
    · exact .inl ⟨hpx, .inl hout⟩
    · exact .inr ⟨p, hpx, hout, .inl hfree⟩
  · rcases s.outputEvent_presents with ⟨hpx, hout⟩ | ⟨p, hpx, hout⟩
    · exact .inl ⟨hpx, hout.imp_right fun h => ⟨rfl, h⟩⟩
    · exact .inr ⟨p, hpx, hout, .inr rfl⟩

end Sys2Proof.Machine
end

section
/-!
PROOFS. The statements about the encoder, the opcode map and what the decoder rejects (spec 30_encoding.md R50 to R58).
-/

namespace Sys2Proof.Machine

open Sys2Proof

/-- Settles O1: the decoder's round trip, whose only condition is that a short END comes last. -/
theorem decodeOfEncodeGivesInstruction : Obligations.DecodeOfEncodeGivesInstruction :=
  fun _ _ hwf hend => decode_encode hwf hend

/-- Settles O2: the bytes read are the encoding, and the encoding is as long as the instruction. -/
theorem decodedBytesAreTheEncoding : Obligations.DecodedBytesAreTheEncoding := by
  intro c bs rest i h
  have henc := encode_of_decode h
  exact ⟨wf_of_decode h, decode_context h, henc, by rw [henc, List.length_append, length_encode]⟩

/-! ### The opcode map -/

/-- Settles O3: R54's table, checked at each of the 256 tags. -/
theorem everyTagSelectsOneOpcode : Obligations.EveryTagSelectsOneOpcode := by
  unfold Obligations.EveryTagSelectsOneOpcode
  decide

/-- The bytes that follow a tag, by its value (R51, R54). -/
theorem trailing_classify : ∀ tag : Byte, (classify tag).trailing =
    if tag = 0xFE then 3 else if tag = 0xFF then 4 else if tag.toNat / 64 = 2 then 1 else 0 := by decide

/-- Settles O4: a tag is rejected only where its trailing bytes are missing, and END takes what there is. -/
theorem onlyMissingBytesAreRejected : Obligations.OnlyMissingBytesAreRejected := by
  refine ⟨rfl, fun tag rest => ?_, fun _ => rfl⟩
  rw [← trailing_classify]
  rcases decodeChunk_cons tag rest with ⟨i, _, hd, rfl, henough⟩ | ⟨hd, hshort⟩
  · rw [if_neg (Nat.not_lt.2 henough)]
    exact ⟨i, hd⟩
  · rw [if_pos hshort]
    exact hd

/-- Settles O5: the decoder evaluated on each word. -/
theorem specWordsDecode : Obligations.SpecWordsDecode :=
  ⟨rfl, rfl, rfl, rfl, rfl, rfl, rfl, rfl, rfl, rfl, rfl, rfl, rfl⟩

end Sys2Proof.Machine
end

section
/-!
PROOFS. The assembler notation (spec 30_encoding.md R60): a line assembles exactly where its operands are the values of some
fields, and then to the encoding of the instruction with those fields.
-/

namespace Sys2Proof.Machine

open Sys2Proof

/-! ### Fields -/

/-- An operand's field is the one that holds the operand plus the bias. -/
theorem asmField_eq_some {w : Nat} {bias v : Int} {f : BitVec w} : asmField w bias v = some f ↔ v + bias = f.toNat := by
  have hf := f.isLt
  unfold asmField
  constructor <;> intro h
  · split at h
    next hrange =>
      obtain ⟨h0, hlt⟩ := hrange
      cases h
      rw [BitVec.toNat_ofInt, Int.toNat_of_nonneg (Int.emod_nonneg _ (by positivity))]
      exact (Int.emod_eq_of_lt h0 (by exact_mod_cast hlt)).symm
    next => cases h
  · rw [h, if_pos ⟨Int.natCast_nonneg _, by exact_mod_cast hf⟩, BitVec.ofInt_natCast, BitVec.ofNat_toNat,
      BitVec.setWidth_eq]

/-- Every value of a field's range is that of a field. -/
theorem exists_field {w : Nat} {v : Int} (h0 : 0 ≤ v) (h : v < 2 ^ w) : ∃ f : BitVec w, v = f.toNat := by
  obtain ⟨n, rfl⟩ := Int.eq_ofNat_of_zero_le h0
  exact ⟨BitVec.ofNat w n, by rw [BitVec.toNat_ofNat, Nat.mod_eq_of_lt (by exact_mod_cast h)]⟩

/-! ### Lines -/

theorem assemble_rgb_eq_some {r g b : Int} {bs : List Byte} :
    assemble (.rgb r g b) = some bs ↔
      ∃ fr fg fb : Byte, r = fr.toNat ∧ g = fg.toNat ∧ b = fb.toNat ∧ encode (.rgb fr fg fb) = bs := by
  simp [assemble, Option.bind_eq_some_iff, asmField_eq_some]

theorem assemble_rgba_eq_some {r g b a : Int} {bs : List Byte} :
    assemble (.rgba r g b a) = some bs ↔
      ∃ fr fg fb fa : Byte,
        r = fr.toNat ∧ g = fg.toNat ∧ b = fb.toNat ∧ a = fa.toNat ∧ encode (.rgba fr fg fb fa) = bs := by
  simp [assemble, Option.bind_eq_some_iff, asmField_eq_some]

theorem assemble_index_eq_some {i : Int} {bs : List Byte} :
    assemble (.index i) = some bs ↔ ∃ idx : Slot, i = idx.toNat ∧ encode (.index idx) = bs := by
  simp [assemble, Option.bind_eq_some_iff, asmField_eq_some]

theorem assemble_diff_eq_some {dr dg db : Int} {bs : List Byte} :
    assemble (.diff dr dg db) = some bs ↔
      ∃ fr fg fb, dr + 2 = fr.toNat ∧ dg + 2 = fg.toNat ∧ db + 2 = fb.toNat ∧ encode (.diff fr fg fb) = bs := by
  simp [assemble, Option.bind_eq_some_iff, asmField_eq_some]

theorem assemble_luma_eq_some {dg drg dbg : Int} {bs : List Byte} :
    assemble (.luma dg drg dbg) = some bs ↔
      ∃ fg frg fbg, dg + 32 = fg.toNat ∧ drg + 8 = frg.toNat ∧ dbg + 8 = fbg.toNat ∧
        encode (.luma fg frg fbg) = bs := by
  simp [assemble, Option.bind_eq_some_iff, asmField_eq_some]

theorem assemble_run_eq_some {n : Int} {bs : List Byte} :
    assemble (.run n) = some bs ↔ n ≤ 62 ∧ ∃ fn : BitVec 6, n + -1 = fn.toNat ∧ encode (.run fn) = bs := by
  simp [assemble, Option.bind_eq_some_iff, asmField_eq_some]

theorem assemble_bytes_nil : assemble (.bytes []) = some [] := rfl

theorem assemble_bytes_cons_eq_some {v : Int} {vs : List Int} {bs : List Byte} :
    assemble (.bytes (v :: vs)) = some bs ↔
      ∃ b : Byte, v = b.toNat ∧ ∃ bs', assemble (.bytes vs) = some bs' ∧ b :: bs' = bs := by
  simp [assemble, Option.bind_eq_some_iff, asmField_eq_some]

/-- The bytes of a chunk alone decode to it. -/
theorem decode_encode_alone {i : Instr} (hwf : i.wf = true) (hi : i.context = .chunk) :
    decode .chunk (encode i) = .ok (i, []) := by
  simpa [decode] using decodeChunk_encode hwf hi []

/-! ### Operands in range and out of range -/

theorem literals_refused (r g b a : Int) :
    (¬(0 ≤ r ∧ r ≤ 255 ∧ 0 ≤ g ∧ g ≤ 255 ∧ 0 ≤ b ∧ b ≤ 255) → assemble (.rgb r g b) = none) ∧
      (¬(0 ≤ r ∧ r ≤ 255 ∧ 0 ≤ g ∧ g ≤ 255 ∧ 0 ≤ b ∧ b ≤ 255 ∧ 0 ≤ a ∧ a ≤ 255) →
        assemble (.rgba r g b a) = none) := by
  constructor
  · refine fun hout => Option.eq_none_iff_forall_ne_some.2 fun bs hbs => hout ?_
    obtain ⟨fr, fg, fb, rfl, rfl, rfl, -⟩ := assemble_rgb_eq_some.1 hbs
    omega
  · refine fun hout => Option.eq_none_iff_forall_ne_some.2 fun bs hbs => hout ?_
    obtain ⟨fr, fg, fb, fa, rfl, rfl, rfl, rfl, -⟩ := assemble_rgba_eq_some.1 hbs
    omega

theorem index_operand (i : Int) :
    if 0 ≤ i ∧ i ≤ 63 then
      ∃ bs idx, assemble (.index i) = some bs ∧ decode .chunk bs = .ok (.index idx, []) ∧ idx.toNat = i
    else assemble (.index i) = none := by
  split
  next hin =>
    obtain ⟨idx, hidx⟩ := exists_field (w := 6) (v := i) (by omega) (by omega)
    exact ⟨_, idx, assemble_index_eq_some.2 ⟨idx, hidx, rfl⟩, decode_encode_alone rfl rfl, hidx.symm⟩
  next hout =>
    refine Option.eq_none_iff_forall_ne_some.2 fun bs hbs => hout ?_
    obtain ⟨idx, hidx, -⟩ := assemble_index_eq_some.1 hbs
    omega

theorem diff_operands (dr dg db : Int) :
    if -2 ≤ dr ∧ dr ≤ 1 ∧ -2 ≤ dg ∧ dg ≤ 1 ∧ -2 ≤ db ∧ db ≤ 1 then
      ∃ bs fr fg fb, assemble (.diff dr dg db) = some bs ∧ decode .chunk bs = .ok (.diff fr fg fb, []) ∧
        diffDelta fr = dr ∧ diffDelta fg = dg ∧ diffDelta fb = db
    else assemble (.diff dr dg db) = none := by
  split
  next hin =>
    obtain ⟨fr, hr⟩ := exists_field (w := 2) (v := dr + 2) (by omega) (by omega)
    obtain ⟨fg, hg⟩ := exists_field (w := 2) (v := dg + 2) (by omega) (by omega)
    obtain ⟨fb, hb⟩ := exists_field (w := 2) (v := db + 2) (by omega) (by omega)
    refine ⟨_, fr, fg, fb, assemble_diff_eq_some.2 ⟨fr, fg, fb, hr, hg, hb, rfl⟩, decode_encode_alone rfl rfl, ?_⟩
    unfold diffDelta
    omega
  next hout =>
    refine Option.eq_none_iff_forall_ne_some.2 fun bs hbs => hout ?_
    obtain ⟨fr, fg, fb, hr, hg, hb, -⟩ := assemble_diff_eq_some.1 hbs
    omega

theorem luma_operands (dg drg dbg : Int) :
    if -32 ≤ dg ∧ dg ≤ 31 ∧ -8 ≤ drg ∧ drg ≤ 7 ∧ -8 ≤ dbg ∧ dbg ≤ 7 then
      ∃ bs fg frg fbg, assemble (.luma dg drg dbg) = some bs ∧ decode .chunk bs = .ok (.luma fg frg fbg, []) ∧
        lumaGreen fg = dg ∧ lumaOther frg dg = dg + drg ∧ lumaOther fbg dg = dg + dbg
    else assemble (.luma dg drg dbg) = none := by
  split
  next hin =>
    obtain ⟨fg, hg⟩ := exists_field (w := 6) (v := dg + 32) (by omega) (by omega)
    obtain ⟨frg, hr⟩ := exists_field (w := 4) (v := drg + 8) (by omega) (by omega)
    obtain ⟨fbg, hb⟩ := exists_field (w := 4) (v := dbg + 8) (by omega) (by omega)
    refine ⟨_, fg, frg, fbg, assemble_luma_eq_some.2 ⟨fg, frg, fbg, hg, hr, hb, rfl⟩, decode_encode_alone rfl rfl, ?_⟩
    unfold lumaGreen lumaOther
    omega
  next hout =>
    refine Option.eq_none_iff_forall_ne_some.2 fun bs hbs => hout ?_
    obtain ⟨fg, frg, fbg, hg, hr, hb, -⟩ := assemble_luma_eq_some.1 hbs
    omega

/-- The field stops at 61, as 62 and 63 would make the tags of RGB and RGBA (R104). -/
theorem run_operand (n : Int) :
    if 1 ≤ n ∧ n ≤ 62 then
      ∃ bs fn, assemble (.run n) = some bs ∧ decode .chunk bs = .ok (.run fn, []) ∧ (runLength fn : Int) = n
    else assemble (.run n) = none := by
  split
  next hin =>
    obtain ⟨fn, hn⟩ := exists_field (w := 6) (v := n + -1) (by omega) (by omega)
    have hwf : (Instr.run fn).wf = true := by simp only [Instr.wf, decide_eq_true_eq]; omega
    refine ⟨_, fn, assemble_run_eq_some.2 ⟨hin.2, fn, hn, rfl⟩, decode_encode_alone hwf rfl, ?_⟩
    unfold runLength
    omega
  next hout =>
    refine Option.eq_none_iff_forall_ne_some.2 fun bs hbs => hout ?_
    obtain ⟨hle, fn, hn, -⟩ := assemble_run_eq_some.1 hbs
    omega

theorem assemble_bytes_of_bytes (bs : List Byte) : assemble (.bytes (bs.map fun b => (b.toNat : Int))) = some bs := by
  induction bs with
  | nil => exact assemble_bytes_nil
  | cons b bs ih => exact assemble_bytes_cons_eq_some.2 ⟨b, rfl, bs, ih, rfl⟩

/-- A `.byte` line lists the bytes it assembles to. -/
theorem map_toNat_of_assemble_bytes {vs : List Int} {bs : List Byte} (h : assemble (.bytes vs) = some bs) :
    vs = bs.map fun b => (b.toNat : Int) := by
  induction vs generalizing bs with
  | nil => cases assemble_bytes_nil.symm.trans h; rfl
  | cons v vs ih =>
    obtain ⟨b, rfl, bs', hbs', rfl⟩ := assemble_bytes_cons_eq_some.1 h
    rw [ih hbs', List.map_cons]

theorem bytes_refused {vs : List Int} (hout : ∃ v ∈ vs, ¬(0 ≤ v ∧ v ≤ 255)) : assemble (.bytes vs) = none := by
  obtain ⟨v, hv, hrange⟩ := hout
  refine Option.eq_none_iff_forall_ne_some.2 fun bs hbs => hrange ?_
  rw [map_toNat_of_assemble_bytes hbs] at hv
  obtain ⟨b, -, rfl⟩ := List.mem_map.1 hv
  omega

/-- Settles O6: line by line, an operand in range is the value of a field, and no other operand is. -/
theorem assemblerEncodesItsOperands : Obligations.AssemblerEncodesItsOperands :=
  ⟨fun r g b a => ⟨assemble_rgb_eq_some.2 ⟨r, g, b, rfl, rfl, rfl, rfl⟩,
      assemble_rgba_eq_some.2 ⟨r, g, b, a, rfl, rfl, rfl, rfl, rfl⟩⟩,
    literals_refused, index_operand, diff_operands, luma_operands, run_operand, rfl, assemble_bytes_of_bytes,
    fun _ => bytes_refused⟩

end Sys2Proof.Machine
end

section
/-!
PROOFS. That a step always answers, and how far a chunk's step gets (spec 30_encoding.md R51, R57,
40_main_loop_and_commit.md R73, 44_run_chunk.md R100).
-/

namespace Sys2Proof.Machine

open Sys2Proof

/-- Settles O32: a fetched instruction is in its phase, where every instruction answers. -/
theorem stepAlwaysAnswers : Obligations.StepAlwaysAnswers := step_answers

/-- A well-formed chunk appends at most a longest RUN's 62 pixels, whatever its clamp (R73, R100). -/
theorem length_pixels_exec_le {i : Instr} {s t : State} (hwf : i.wf = true) (hi : i.context = .chunk)
    (h : exec i s = .next t) : t.pixels.length ≤ s.pixels.length + 62 := by
  cases i <;> simp only [exec, execRgb, execRgba, execIndex, execDiff, execLuma, execRun, inPhase_eq_next] at h
  case endMark => cases hi
  case run fn =>
    obtain ⟨-, rfl⟩ := h
    obtain ⟨hpx, -⟩ := s.commitLast_produced (min (runLength fn) s.room)
    have hlen : runLength fn ≤ 62 := Nat.succ_le_succ (of_decide_eq_true hwf)
    rw [hpx, List.length_append, List.length_replicate]
    omega
  all_goals
    obtain ⟨-, rfl⟩ := h
    simp

/-- Settles O42: of the steps from CHUNK only a chunk's own does not fail; it takes the chunk's bytes, and as pixels are
required it commits at least one. -/
theorem chunkStepMakesProgress : Obligations.ChunkStepMakesProgress := by
  rintro s t ⟨hp, hc⟩ hrequired h hok
  rcases step_inversion hc h with ⟨hb, -⟩ | ⟨-, -, rfl⟩ | ⟨-, i, rest, u, hd, hi, hx, rfl⟩ | ⟨hterm, -⟩ | ⟨hterm, -⟩
  · simp [State.busy, hp] at hb
  · exact absurd rfl hok
  · obtain ⟨-, hlen1, hlen5, -⟩ := decodeChunk_consumes hd
    obtain ⟨p, m, hchunk, hpos, -⟩ := exec_produces hi hx
    obtain ⟨hpx, -⟩ := hchunk.produced
    obtain ⟨hm, -⟩ := hchunk.fits hrequired
    have hmost := length_pixels_exec_le (wf_of_decode (c := .chunk) hd) hi hx
    rw [hpx] at hmost
    simp only [State.loopTest_pos, State.loopTest_pixels, hpos, hpx, State.advance_pos, State.advance_pixels,
      List.length_append, List.length_replicate] at hmost ⊢
    omega
  · rw [hp] at hterm; cases hterm
  · rw [hp] at hterm; cases hterm

end Sys2Proof.Machine
end

section
/-!
PROOFS. The main loop (spec 40_main_loop_and_commit.md R70 to R73): what a step runs, what an instruction does outside its
phase (R109), and that every decode is over after a bounded number of steps.
-/

namespace Sys2Proof.Machine

open Sys2Proof

/-! ### Progress -/

/-- A chunk's step that does not fail leaves a byte less and a required pixel less (R73). -/
theorem chunk_step_progresses {s t : State} (hinv : s.Inv) (hd : s.Decoding) (h : step s = .next t)
    (hok : t.phase ≠ .error) : t.remaining.length < s.remaining.length ∧ t.room < s.room := by
  obtain ⟨hsize, hsrc, -⟩ := step_samePorts hd.2 h
  obtain ⟨⟨hlen, -, hrequired, -⟩, -⟩ := id hinv
  obtain ⟨hpx, -⟩ := stepKeepsInvariant s t hinv h
  obtain ⟨hlen', (hbound : t.count.toNat ≤ t.size.toNat), -⟩ := id hpx
  have hcur : t.pos ≤ t.src.length := hpx.cursorInSource
  obtain ⟨hpos, -, hmore, -⟩ := chunkStepMakesProgress s t hd (hrequired.1 hd.1) h hok
  simp only [State.remaining, State.room, List.length_drop, hsize, hsrc] at hcur hbound ⊢
  omega

/-- A step of a decode ends it, or leaves it busy with a byte less and a required pixel less (R70, R73). -/
theorem step_ends_or_progresses {s t : State} (hinv : s.Inv) (hb : s.busy = true) (hc : s.cmd = none)
    (h : step s = .next t) :
    (t.phase = .done ∨ t.phase = .error) ∨
      (t.busy = true ∧ t.remaining.length < s.remaining.length ∧ t.room < s.room) := by
  have hcontrol := phaseChanges s t hc h
  rcases State.busy_iff.1 hb with hp | hp <;> simp only [hp] at hcontrol
  · rcases hcontrol with hfail | hgoes
    · exact .inl (.inr hfail)
    · have hok : t.phase ≠ .error := by rw [hgoes]; split <;> decide
      have hbt : t.busy = true := State.busy_iff.2 (by rw [hgoes]; split <;> decide)
      exact .inr ⟨hbt, chunk_step_progresses hinv ⟨hp, hc⟩ h hok⟩
  · exact .inl hcontrol

/-- Each step but the last one takes a byte and a required pixel, so there is at most one step more than there are of
either. -/
theorem decode_ends {s : State} (hinv : s.Inv) (hb : s.busy = true) (hc : s.cmd = none) :
    ∃ k t, k ≤ s.remaining.length + 1 ∧ k ≤ s.room + 1 ∧ runSteps k s = .next t ∧
      (t.phase = .done ∨ t.phase = .error) := by
  induction hroom : s.room using Nat.strongRecOn generalizing s with
  | ind n ih =>
    obtain ⟨t, ht⟩ := step_answers s
    have hrun (k : Nat) : runSteps (k + 1) s = runSteps k t := by rw [runSteps, ht]
    rcases step_ends_or_progresses hinv hb hc ht with hover | ⟨hbt, hbytes, hpixels⟩
    · exact ⟨1, t, by omega, by omega, hrun 0, hover⟩
    · obtain ⟨-, -, hcmd, -⟩ := step_samePorts hc ht
      obtain ⟨k, u, hkbytes, hkpixels, hk, hover⟩ :=
        ih t.room (hroom ▸ hpixels) (stepKeepsInvariant s t hinv ht) hbt (hcmd.trans hc) rfl
      exact ⟨k + 1, u, by omega, by omega, (hrun k).trans hk, hover⟩

/-- Settles O43: the last step is the only one that may take no byte, so even one step fewer than the bytes allow is
enough. -/
theorem everyDecodeEnds : Obligations.EveryDecodeEnds := by
  intro s hinv hb hc
  obtain ⟨k, t, hbytes, hpixels, hrun, hover⟩ := decode_ends hinv hb hc
  exact ⟨k, t, by omega, hpixels, hrun, hover⟩

/-! ### The step and the instruction -/

/-- Settles O29: the decoded instruction is the one fetched, and `settle` makes the loop test. -/
theorem stepRunsTheDecodedInstruction : Obligations.StepRunsTheDecodedInstruction := by
  intro s c i rest hc hctx hd
  have hstep : step s = settle (exec i (s.advance i.length)) := by
    simp only [step, hc, State.fetch_of_decode hctx hd]
  exact hstep

/-- The phase in which a context's instructions have their effect. -/
def phaseOf : Context → Phase
  | .chunk => .chunk
  | .term => .term

theorem inContext_iff {c : Context} {s : State} : InContext c s ↔ s.phase = phaseOf c := by
  cases c <;> simp [InContext, phaseOf]

/-- Every instruction's meaning is guarded by the phase of its context (R70, R109). -/
theorem exec_eq_inPhase (i : Instr) (s : State) : ∃ t, exec i s = inPhase (phaseOf i.context) s t := by
  cases i <;> exact ⟨_, rfl⟩

theorem inPhase_eq_fault {ph : Phase} {s t : State} : inPhase ph s t = .fault .outOfPhase ↔ s.phase ≠ ph := by
  unfold inPhase; split <;> simp [*]

/-- Settles O21: the guard is the only fault. -/
theorem outOfPhaseFaults : Obligations.OutOfPhaseFaults := by
  intro i s
  obtain ⟨t, hx⟩ := exec_eq_inPhase i s
  rw [hx, inPhase_eq_fault]
  exact (not_congr inContext_iff).symm

end Sys2Proof.Machine
end

section
/-!
PROOFS. The cache index function (spec 40_main_loop_and_commit.md R77, R78).
-/

namespace Sys2Proof.Machine

open Sys2Proof

/-- Settles O8: the definition, and each channel is at most 255. -/
theorem hashIsTheLinearCombination : Obligations.HashIsTheLinearCombination := by
  intro p
  have hr := p.r.isLt
  have hg := p.g.isLt
  have hb := p.b.isLt
  have ha := p.a.isLt
  exact ⟨BitVec.toNat_ofNat _ 6, by omega⟩

/-- 64 divides 256, so wrapping at 256 first loses nothing. -/
theorem pixelHash_eq_setWidth (p : Pixel) : pixelHash p = (p.r * 3 + p.g * 5 + p.b * 7 + p.a * 11).setWidth 6 := by
  apply BitVec.eq_of_toNat_eq
  simp only [pixelHash, BitVec.ofNat_eq_ofNat, BitVec.toNat_ofNat, BitVec.toNat_setWidth, BitVec.toNat_add, BitVec.toNat_mul]
  omega

/-- The low bits of sums and products come from the low bits of what is added and multiplied. -/
theorem pixelHash_eq_lowBits (p : Pixel) :
    pixelHash p = p.r.setWidth 6 * 3 + p.g.setWidth 6 * 5 + p.b.setWidth 6 * 7 + p.a.setWidth 6 * 11 := by
  rw [pixelHash_eq_setWidth]
  simp [BitVec.setWidth_add, BitVec.setWidth_mul]

/-- Settles O9: in 8 bits, then in 6. -/
theorem hashNeedsOnlyLowBits : Obligations.HashNeedsOnlyLowBits :=
  ⟨pixelHash_eq_setWidth, fun p q hr hg hb ha => by
    rw [pixelHash_eq_lowBits, pixelHash_eq_lowBits, hr, hg, hb, ha]⟩

end Sys2Proof.Machine
end

section
/-!
PROOFS. When UnexpectedInputEnd is raised, and what it leaves (spec 40_main_loop_and_commit.md R72, 60_exceptions.md R116).
-/

namespace Sys2Proof.Machine

open Sys2Proof

/-- Of all steps only one whose chunk the source does not hold ends with UnexpectedInputEnd. -/
theorem step_of_unexpectedInputEnd {s t : State} (hc : s.cmd = none) (hne : s.phase ≠ .error) (h : step s = .next t)
    (hp : t.phase = .error) (herr : t.err = .unexpectedInputEnd) :
    s.phase = .chunk ∧ s.fetch = .exhausted ∧ t = s.exhaust.raise .unexpectedInputEnd := by
  rcases step_inversion hc h with ⟨-, rfl⟩ | hexhausted | ⟨-, i, rest, u, -, hi, hx, rfl⟩ | ⟨-, -, rfl⟩ | ⟨-, -, rfl⟩
  · exact absurd hp hne
  · exact hexhausted
  · rw [State.loopTest_phase, (exec_chunk_phase hi hx).2] at hp
    split at hp <;> cases hp
  · cases hp
  · cases herr

theorem step_of_exhausted {s : State} (hc : s.cmd = none) (hf : s.fetch = .exhausted) :
    step s = .next (s.exhaust.raise .unexpectedInputEnd) := by
  simp only [step, hc, hf]

/-- Fewer bytes than a tag asks for, by the tag's value (R51, R54). -/
theorem lt_trailing_iff {tag : Byte} {n : Nat} :
    n < (classify tag).trailing ↔
      tag = 0xFE ∧ n ≤ 2 ∨ tag = 0xFF ∧ n ≤ 3 ∨ 0x80 ≤ tag.toNat ∧ tag.toNat ≤ 0xBF ∧ n = 0 := by
  rw [trailing_classify]
  split_ifs <;> bv_omega

/-- A chunk is rejected exactly where its tag or one of its trailing bytes is missing (R116). -/
theorem decodeChunk_error_iff {bs : List Byte} :
    (∃ e, decodeChunk bs = .error e) ↔
      bs = [] ∨ ∃ tag rest, bs = tag :: rest ∧ rest.length < (classify tag).trailing := by
  constructor
  · rintro ⟨e, he⟩
    rcases bs with _ | ⟨tag, rest⟩
    · exact .inl rfl
    · exact .inr ⟨tag, rest, rfl, length_lt_trailing_of_error he⟩
  · rintro (rfl | ⟨tag, rest, rfl, hshort⟩)
    · exact ⟨_, rfl⟩
    · rcases decodeChunk_cons tag rest with ⟨-, -, -, -, henough⟩ | ⟨he, -⟩
      · omega
      · exact ⟨_, he⟩

/-- Settles O35: the error comes from an exhausted fetch, and that from a chunk the decoder rejects. -/
theorem unexpectedInputEndExactly : Obligations.UnexpectedInputEndExactly := by
  intro s hc hne
  simp only [← lt_trailing_iff, ← decodeChunk_error_iff]
  refine ⟨⟨?_, ?_⟩, ?_⟩
  · rintro ⟨t, h, hp, herr⟩
    obtain ⟨hchunk, hf, -⟩ := step_of_unexpectedInputEnd hc hne h hp herr
    exact ⟨hchunk, (State.fetch_exhausted_iff hchunk).1 hf⟩
  · rintro ⟨hchunk, hrejected⟩
    exact ⟨_, step_of_exhausted hc ((State.fetch_exhausted_iff hchunk).2 hrejected), rfl, rfl⟩
  · intro t h hp herr
    obtain ⟨-, -, rfl⟩ := step_of_unexpectedInputEnd hc hne h hp herr
    exact ⟨rfl, rfl, rfl, ⟨rfl, rfl, rfl, rfl⟩, ⟨rfl, rfl, rfl, rfl, rfl⟩⟩

end Sys2Proof.Machine
end

section
/-!
PROOFS. The literal chunks (spec 41_literal_chunks.md R85, R86), and what takes any chunk's effect from `exec` to the step:
its bytes at the cursor, or too few of them (40_main_loop_and_commit.md R70, R72).
-/

namespace Sys2Proof.Machine

open Sys2Proof

/-! ### From `exec` to the step -/

/-- A chunk whose meaning is one commit produces that pixel. -/
theorem ExecProduces.of_commit {i : Instr} {s : State} {p : Pixel} (h : exec i s = .next (s.commit p)) :
    ExecProduces i s p 1 :=
  ⟨s.commit p, h, s.commit_produced p, (ChunkPixels.of_commit s p).ports, rfl, rfl, rfl⟩

/-- In CHUNK the step at a chunk's bytes consumes them, produces what the chunk's meaning does, and makes the loop test
(R70). -/
theorem ExecProduces.stepProduces {i : Instr} {s : State} {p : Pixel} {m : Nat} {rest : List Byte} (h : ExecProduces i s p m)
    (hs : s.Decoding) (hd : decodeChunk s.remaining = .ok (i, rest)) : StepProduces s i.length p m := by
  obtain ⟨hp, hc⟩ := hs
  obtain ⟨u, hx, hproduced, hports, hpos, hphase, herr⟩ := h
  have hstep : step s = settle (exec i (s.advance i.length)) :=
    stepRunsTheDecodedInstruction s .chunk i rest hc (.inl ⟨rfl, hp⟩) hd
  rw [exec_advance i.length hx] at hstep
  have hend : ChunkEnded s i.length (u.advance i.length).loopTest := by simp [ChunkEnded, hpos, herr, hphase, hp]
  exact ⟨_, hstep, by simpa [Produced] using hproduced, by simpa [SamePorts] using hports, hend⟩

/-- In CHUNK a tag with fewer bytes behind it than it asks for fails the decode (R72). -/
theorem stepFails_of_short {s : State} {tag : Byte} {rest : List Byte} (hs : s.Decoding)
    (hbytes : s.remaining = tag :: rest) (hshort : rest.length < (classify tag).trailing) : StepFails s := by
  obtain ⟨hp, hc⟩ := hs
  obtain ⟨hexactly, hfailed⟩ := unexpectedInputEndExactly s hc (by simp [hp])
  obtain ⟨t, h, herror, herr⟩ := hexactly.2 ⟨hp, .inr ⟨tag, rest, hbytes, lt_trailing_iff.1 hshort⟩⟩
  exact ⟨t, h, hfailed t h herror herr⟩

/-! ### RGB and RGBA -/

theorem execProduces_rgb {s : State} (r g b : Byte) (hp : s.phase = .chunk) :
    ExecProduces (.rgb r g b) s ⟨r, g, b, s.last.a⟩ 1 :=
  .of_commit (inPhase_of_phase hp)

theorem execProduces_rgba {s : State} (r g b a : Byte) (hp : s.phase = .chunk) :
    ExecProduces (.rgba r g b a) s ⟨r, g, b, a⟩ 1 :=
  .of_commit (inPhase_of_phase hp)

/-- Settles O10: the bytes are decoded to the chunk, whose meaning is one commit; the tag asks for three. -/
theorem rgbChunk : Obligations.RgbChunk :=
  ⟨fun _ r g b hp => execProduces_rgb r g b hp,
    fun _ r g b rest hs hbytes => (execProduces_rgb r g b hs.1).stepProduces (rest := rest) hs (hbytes ▸ rfl),
    fun _ _ hs hbytes hshort => stepFails_of_short hs hbytes hshort⟩

/-- Settles O11: as for RGB, with alpha read from the source; the tag asks for four. -/
theorem rgbaChunk : Obligations.RgbaChunk :=
  ⟨fun _ r g b a hp => execProduces_rgba r g b a hp,
    fun _ r g b a rest hs hbytes => (execProduces_rgba r g b a hs.1).stepProduces (rest := rest) hs (hbytes ▸ rfl),
    fun _ _ hs hbytes hshort => stepFails_of_short hs hbytes hshort⟩

end Sys2Proof.Machine
end

section
/-!
PROOFS. The index chunk (spec 42_index_chunk.md R90 to R93).
-/

namespace Sys2Proof.Machine

open Sys2Proof

/-! ### The chunk -/

theorem exec_index {s : State} (idx : Slot) (hp : s.phase = .chunk) :
    exec (.index idx) s = .next (s.commit (s.seenAt idx)) :=
  inPhase_of_phase hp

/-- A tag 00 to 3F is an INDEX of the slot its low six bits number (R54, R90). -/
theorem decodeChunk_of_index_tag {tag : Byte} (htag : tag.toNat ≤ 0x3F) (rest : List Byte) :
    decodeChunk (tag :: rest) = .ok (.index (tag.setWidth 6), rest) := by
  obtain ⟨hindex, -⟩ := everyTagSelectsOneOpcode tag
  rw [BitVec.setWidth_eq_extractLsb' (by decide)]
  simp only [decodeChunk, hindex.2 htag]

/-- Settles O12: the meaning is the commit of the slot, and the tag is decoded to it. -/
theorem indexChunk : Obligations.IndexChunk :=
  ⟨fun _ idx hp => .of_commit (exec_index idx hp),
    fun _ _ rest hs hbytes htag =>
      (ExecProduces.of_commit (exec_index _ hs.1)).stepProduces hs (hbytes ▸ decodeChunk_of_index_tag htag rest)⟩

/-! ### Commits one after another -/

theorem State.foldl_commit_phase (ps : List Pixel) (s : State) : (ps.foldl State.commit s).phase = s.phase := by
  induction ps generalizing s with
  | nil => rfl
  | cons p ps ih => exact ih (s.commit p)

theorem State.foldl_commit_pixels (ps : List Pixel) (s : State) :
    (ps.foldl State.commit s).pixels = s.pixels ++ ps := by
  induction ps generalizing s with
  | nil => simp
  | cons p ps ih => simp [ih]

/-- Commits of pixels of other hashes leave a slot alone (R93). -/
theorem State.foldl_commit_seenAt {ps : List Pixel} {i : Slot} (hne : ∀ q ∈ ps, pixelHash q ≠ i) (s : State) :
    (ps.foldl State.commit s).seenAt i = s.seenAt i := by
  induction ps generalizing s with
  | nil => rfl
  | cons p ps ih =>
    obtain ⟨hp, hps⟩ := List.forall_mem_cons.1 hne
    rw [List.foldl_cons, ih hps, State.commit_seenAt, if_neg (Ne.symm hp)]

/-- Settles O24: the slot of the pixel's hash still holds the pixel when INDEX reads it. -/
theorem indexReturnsTheLatestCommit : Obligations.IndexReturnsTheLatestCommit := by
  intro s p ps hp hne
  have hphase : (ps.foldl State.commit (s.commit p)).phase = .chunk := (State.foldl_commit_phase ps _).trans hp
  have hslot : (ps.foldl State.commit (s.commit p)).seenAt (pixelHash p) = p := by
    rw [State.foldl_commit_seenAt hne, State.commit_seenAt, if_pos rfl]
  have hx := exec_index (pixelHash p) hphase
  rw [hslot] at hx
  exact ⟨_, hx, rfl, by simp [State.foldl_commit_pixels]⟩

/-! ### The cache after INDEX -/

/-- To commit what the slot of its hash holds already is to leave the cache alone (R91). -/
theorem State.commit_seen_of_cached {s : State} {p : Pixel} (h : s.seenAt (pixelHash p) = p) :
    (s.commit p).seen = s.seen := by
  apply State.seen_ext
  intro i
  rw [State.commit_seenAt]
  split
  case isTrue hi => rw [hi, h]
  case isFalse => rfl

theorem pixelHash_zero : pixelHash Config.zero = 0 := by decide

/-- In a well-formed cache a non-zero pixel, and whatever slot 0 holds, stands in the slot of its hash. -/
theorem State.CacheWf.pixelHash_seenAt {s : State} (h : s.CacheWf) {i : Slot}
    (hi : s.seenAt i ≠ Config.zero ∨ i = 0) : pixelHash (s.seenAt i) = i := by
  rcases h i with hzero | hhash
  · rw [hzero, pixelHash_zero, hi.resolve_left (not_not_intro hzero)]
  · exact hhash

/-- Settles O25: the pixel read stands in the slot of its hash, or it is ZERO, whose hash is 0. -/
theorem indexCommitsWhereTheHashSays : Obligations.IndexCommitsWhereTheHashSays := by
  intro s idx hp hwf
  refine ⟨_, exec_index idx hp, ?_⟩
  split
  case isTrue h => exact State.commit_seen_of_cached (by rw [hwf.pixelHash_seenAt h])
  case isFalse h =>
    have hzero : s.seenAt idx = Config.zero := not_not.1 (not_or.1 h).1
    rw [hzero]
    refine ⟨rfl, ?_, fun j hj => ?_⟩
    · rw [State.commit_seenAt, if_pos pixelHash_zero.symm]
    · rw [State.commit_seenAt, if_neg (pixelHash_zero ▸ hj)]

end Sys2Proof.Machine
end

section
/-!
PROOFS. The delta chunks (spec 43_diff_chunks.md R95 to R97).
-/

namespace Sys2Proof.Machine

open Sys2Proof

/-! ### The chunks' meanings -/

theorem exec_diff {s : State} (fr fg fb : BitVec 2) (hp : s.phase = .chunk) :
    exec (.diff fr fg fb) s = .next (s.commit (addDeltas s.last (diffDelta fr) (diffDelta fg) (diffDelta fb))) :=
  inPhase_of_phase hp

theorem exec_luma {s : State} (fg : BitVec 6) (frg fbg : BitVec 4) (hp : s.phase = .chunk) :
    exec (.luma fg frg fbg) s = .next
      (s.commit (addDeltas s.last (lumaOther frg (lumaGreen fg)) (lumaGreen fg) (lumaOther fbg (lumaGreen fg)))) :=
  inPhase_of_phase hp

/-! ### The chunks' bytes -/

/-- A tag 40 to 7F is a DIFF (R54, R95). -/
theorem decodeChunk_of_diff_tag {tag : Byte} (hlo : 0x40 ≤ tag.toNat) (hhi : tag.toNat ≤ 0x7F) (rest : List Byte) :
    decodeChunk (tag :: rest) =
      .ok (.diff (tag.extractLsb' 4 2) (tag.extractLsb' 2 2) (tag.extractLsb' 0 2), rest) := by
  obtain ⟨-, -, hdiff, -⟩ := everyTagSelectsOneOpcode tag
  simp only [decodeChunk, hdiff.2 ⟨hlo, hhi⟩]

/-- A tag 80 to BF and a byte behind it are a LUMA (R54, R96). -/
theorem decodeChunk_of_luma_tag {tag : Byte} (hlo : 0x80 ≤ tag.toNat) (hhi : tag.toNat ≤ 0xBF) (byte1 : Byte)
    (rest : List Byte) :
    decodeChunk (tag :: byte1 :: rest) =
      .ok (.luma (tag.extractLsb' 0 6) (byte1.extractLsb' 4 4) (byte1.extractLsb' 0 4), rest) := by
  obtain ⟨-, -, -, -, hluma, -⟩ := everyTagSelectsOneOpcode tag
  simp only [decodeChunk, hluma.2 ⟨hlo, hhi⟩]

/-- The source's `(x >> k) & mask`, whose mask is `n` ones, reads the `n` bits from bit `k` on. -/
theorem toNat_shift_mask (x : Byte) (k : Nat) {n : Nat} {mask : Byte} (hmask : mask.toNat = 2 ^ n - 1) :
    ((x >>> k) &&& mask).toNat = (x.extractLsb' k n).toNat := by
  rw [BitVec.toNat_and, BitVec.toNat_ushiftRight, hmask, Nat.and_two_pow_sub_one_eq_mod, BitVec.extractLsb'_toNat]

/-- The same where the field begins at bit 0, and nothing is shifted. -/
theorem toNat_mask (x : Byte) {n : Nat} {mask : Byte} (hmask : mask.toNat = 2 ^ n - 1) :
    (x &&& mask).toNat = (x.extractLsb' 0 n).toNat :=
  toNat_shift_mask x 0 hmask

/-- Settles O13: the meaning is one commit, and the tag is decoded to the fields the source's expressions read. -/
theorem diffChunk : Obligations.DiffChunk := by
  refine ⟨fun s fr fg fb hp => .of_commit (exec_diff fr fg fb hp), fun s tag rest hs hbytes hlo hhi => ?_⟩
  rw [toNat_shift_mask tag 4 (n := 2) rfl, toNat_shift_mask tag 2 (n := 2) rfl, toNat_mask tag (n := 2) rfl]
  exact (ExecProduces.of_commit (exec_diff _ _ _ hs.1)).stepProduces hs (hbytes ▸ decodeChunk_of_diff_tag hlo hhi rest)

/-- Settles O14: as for DIFF, with red and blue read from the second byte; the tag asks for it. -/
theorem lumaChunk : Obligations.LumaChunk := by
  refine ⟨fun s fg frg fbg hp => .of_commit (exec_luma fg frg fbg hp), fun s tag byte1 rest hs hbytes hlo hhi => ?_,
    fun s tag hs hbytes hlo hhi => stepFails_of_short hs hbytes (lt_trailing_iff.2 (.inr (.inr ⟨hlo, hhi, rfl⟩)))⟩
  rw [toNat_shift_mask byte1 4 (n := 4) rfl, toNat_mask byte1 (n := 4) rfl, toNat_mask tag (n := 6) rfl]
  exact (ExecProduces.of_commit (exec_luma _ _ _ hs.1)).stepProduces hs
    (hbytes ▸ decodeChunk_of_luma_tag hlo hhi byte1 rest)

/-! ### Alpha -/

/-- DIFF and LUMA: the instructions R97 speaks of. -/
def IsDelta (i : Instr) : Prop := (∃ fr fg fb, i = .diff fr fg fb) ∨ ∃ fg frg fbg, i = .luma fg frg fbg

/-- A delta chunk commits one pixel, which has the alpha of the last one. -/
theorem IsDelta.exec_commits {i : Instr} (hi : IsDelta i) {s : State} (hp : s.phase = .chunk) :
    ∃ p, exec i s = .next (s.commit p) ∧ p.a = s.last.a := by
  rcases hi with ⟨fr, fg, fb, rfl⟩ | ⟨fg, frg, fbg, rfl⟩
  · exact ⟨_, exec_diff fr fg fb hp, rfl⟩
  · exact ⟨_, exec_luma fg frg fbg hp, rfl⟩

/-- Settles O22: chunk after chunk, each commits a pixel with the alpha of the one before. -/
theorem deltaChunksKeepAlpha : Obligations.DeltaChunksKeepAlpha := by
  intro is
  induction is with
  | nil => exact fun s _ _ => ⟨s, [], rfl, rfl, (List.append_nil _).symm, by simp⟩
  | cons i is ih =>
    intro s his hp
    obtain ⟨hi, his⟩ := List.forall_mem_cons.1 his
    obtain ⟨p, hx, hpa⟩ := IsDelta.exec_commits hi hp
    obtain ⟨t, ps, hrun, hlast, hpx, hps⟩ := ih (s.commit p) his hp
    rw [State.commit_last, hpa] at hlast hps
    refine ⟨t, p :: ps, by rw [execAll, hx]; exact hrun, hlast, ?_, List.forall_mem_cons.2 ⟨hpa, hps⟩⟩
    rw [hpx, State.commit_pixels, List.append_assoc, List.singleton_append]

end Sys2Proof.Machine
end

section
/-!
PROOFS. The run chunk (spec 44_run_chunk.md R100 to R104).
-/

namespace Sys2Proof.Machine

open Sys2Proof

/-! ### The chunk -/

/-- In CHUNK, RUN produces as many copies of the last pixel as its length and the pixels still required allow (R100, R102). -/
theorem execProduces_run {s : State} (fn : BitVec 6) (hp : s.phase = .chunk) :
    ExecProduces (.run fn) s s.last (min (runLength fn) s.room) :=
  have hrun := ChunkPixels.of_run s fn
  ⟨_, inPhase_of_phase hp, hrun.produced, hrun.ports, State.commitLast_pos s _, State.commitLast_phase s _,
    State.commitLast_err s _⟩

/-- A run that does not overshoot is produced at its full length (R102). -/
theorem execProduces_run_of_not_overshotBy {s : State} {fn : BitVec 6} (hp : s.phase = .chunk)
    (hfits : ¬s.overshotBy (.run fn)) : ExecProduces (.run fn) s s.last (runLength fn) := by
  have hle : runLength fn ≤ s.room := Nat.not_lt.1 hfits
  simpa only [Nat.min_eq_left hle] using execProduces_run fn hp

/-- A tag C0 to FD is a RUN of the field in its low six bits (R54, R100). -/
theorem decodeChunk_of_run_tag {tag : Byte} (hlo : 0xC0 ≤ tag.toNat) (hhi : tag.toNat ≤ 0xFD) (rest : List Byte) :
    decodeChunk (tag :: rest) = .ok (.run (tag.extractLsb' 0 6), rest) := by
  obtain ⟨-, -, -, -, -, -, hrun, -⟩ := everyTagSelectsOneOpcode tag
  simp only [decodeChunk, hrun.2 ⟨hlo, hhi⟩]

/-- Settles O15: the meaning repeats the last pixel up to the clamp, and the tag is decoded to the field the source's
expression reads. -/
theorem runChunk : Obligations.RunChunk := by
  refine ⟨fun s fn hp => execProduces_run fn hp, fun s fn hp hfits => execProduces_run_of_not_overshotBy hp hfits,
    fun s tag rest hs hbytes hlo hhi => ?_⟩
  rw [toNat_mask tag (n := 6) rfl]
  exact (execProduces_run _ hs.1).stepProduces hs (hbytes ▸ decodeChunk_of_run_tag hlo hhi rest)

/-! ### The repetitions -/

/-- The slot of the last pixel's hash holds that pixel after one commit of it and after several alike; no other slot
changes (R101). -/
theorem State.commitLast_seen_of_pos (s : State) {m : Nat} (hm : 0 < m) :
    (s.commitLast m).seen = (s.commit s.last).seen := by
  obtain ⟨-, -, -, hseen⟩ := s.commitLast_produced m
  apply State.seen_ext
  intro i
  simp only [hseen, State.commit_seenAt, hm, and_true]

/-- Repetitions after repetitions are as many in one run (R103). -/
theorem State.commitLast_commitLast (s : State) (m n : Nat) : (s.commitLast m).commitLast n = s.commitLast (m + n) := by
  induction m generalizing s with
  | zero => rw [Nat.zero_add, State.commitLast]
  | succ m ih => rw [Nat.succ_add, State.commitLast, State.commitLast, ih]

/-- Settles O16: all the writes are of one value to one slot, and lengths of runs add. -/
theorem runWritesAreIdempotent : Obligations.RunWritesAreIdempotent :=
  ⟨fun s _ hm => s.commitLast_seen_of_pos hm, State.commitLast_commitLast⟩

end Sys2Proof.Machine
end

section
/-!
PROOFS. The terminator check END (spec 45_termination_and_start.md R105 to R108).
-/

namespace Sys2Proof.Machine

open Sys2Proof

/-! ### The meaning -/

/-- In TERM the eight terminator bytes end the decode in DONE (R105). -/
theorem exec_endMark_terminator {s : State} (hp : s.phase = .term) :
    exec (.endMark terminator) s = .next { s with phase := .done } :=
  inPhase_of_phase hp

/-- In TERM any other bytes, or fewer than eight, raise BadEnding (R105, R106). -/
theorem exec_endMark_of_ne_terminator {s : State} {bytes : List Byte} (hp : s.phase = .term) (hne : bytes ≠ terminator) :
    exec (.endMark bytes) s = .next (s.raise .badEnding) := by
  rw [exec, execEnd, if_neg hne, inPhase_of_phase hp]

/-- Settles O20: END accepts or raises BadEnding, and neither writes anything but the phase and the error. -/
theorem endFrame : Obligations.EndFrame := by
  intro bytes s t h
  rcases exec_cases h with ⟨-, hchunk, -⟩ | ⟨-, -, rfl | rfl⟩
  · cases hchunk
  · exact ⟨⟨rfl, rfl, rfl, rfl⟩, ⟨rfl, rfl, rfl, rfl, rfl⟩, rfl, .inl ⟨rfl, rfl⟩⟩
  · exact ⟨⟨rfl, rfl, rfl, rfl⟩, ⟨rfl, rfl, rfl, rfl, rfl⟩, rfl, .inr ⟨rfl, rfl⟩⟩

/-! ### The step -/

/-- Settles O17: the meaning, and the step at the terminator's eight bytes. -/
theorem endAcceptsTheTerminator : Obligations.EndAcceptsTheTerminator := by
  refine ⟨fun s hp => exec_endMark_terminator hp, fun s rest hp hc hbytes => ?_⟩
  have hrest : (s.advance 8).remaining = rest := by
    rw [State.remaining_advance, hbytes]
    rfl
  exact ⟨_, step_of_terminator hc hp hbytes, rfl, rfl, rfl, hrest, ⟨rfl, rfl, rfl, rfl⟩, ⟨rfl, rfl, rfl, rfl, rfl⟩⟩

/-- In TERM the step takes eight bytes, or all that remain, and raises BadEnding unless they are the terminator (R106,
R107; decision D8). -/
theorem step_of_wrong_ending {s : State} (hc : s.cmd = none) (hp : s.phase = .term)
    (hne : s.remaining.take 8 ≠ terminator) :
    step s = .next ((s.advance (min 8 s.remaining.length)).raise .badEnding) := by
  have hstep : step s = settle (exec (.endMark (s.remaining.take 8)) (s.advance (s.remaining.take 8).length)) :=
    stepRunsTheDecodedInstruction s .term _ (s.remaining.drop 8) hc (.inr ⟨rfl, hp⟩) rfl
  rwa [exec_endMark_of_ne_terminator (s := s.advance _) hp hne, List.length_take] at hstep

/-- Settles O18: the meaning, and the step at any other bytes, eight of them or all that remain. -/
theorem endRejectsAnythingElse : Obligations.EndRejectsAnythingElse :=
  ⟨fun _ _ hp hne => exec_endMark_of_ne_terminator hp hne,
    fun _ hp hc hne =>
      ⟨_, step_of_wrong_ending hc hp hne, rfl, rfl, rfl, ⟨rfl, rfl, rfl, rfl⟩, ⟨rfl, rfl, rfl, rfl, rfl⟩⟩⟩

end Sys2Proof.Machine
end

section
/-!
PROOFS. When BadEnding is raised (spec 60_exceptions.md R117, 45_termination_and_start.md R105 to R107).
-/

namespace Sys2Proof.Machine

open Sys2Proof

/-- Of all steps only the check of a wrong ending ends with BadEnding. -/
theorem step_of_badEnding {s t : State} (hc : s.cmd = none) (hne : s.phase ≠ .error) (h : step s = .next t)
    (hp : t.phase = .error) (herr : t.err = .badEnding) : s.phase = .term ∧ s.remaining.take 8 ≠ terminator := by
  rcases step_inversion hc h with ⟨-, rfl⟩ | ⟨-, -, rfl⟩ | ⟨-, i, rest, u, -, hi, hx, rfl⟩ | ⟨-, -, rfl⟩ |
    ⟨hterm, hwrong, -⟩
  · exact absurd hp hne
  · cases herr
  · rw [State.loopTest_phase, (exec_chunk_phase hi hx).2] at hp
    split at hp <;> cases hp
  · cases hp
  · exact ⟨hterm, hwrong⟩

/-- Settles O36: no other step ends with BadEnding, and in TERM the step at a wrong ending does. -/
theorem badEndingExactly : Obligations.BadEndingExactly := by
  intro s hc hne
  constructor
  · rintro ⟨t, h, hp, herr⟩
    exact step_of_badEnding hc hne h hp herr
  · rintro ⟨hterm, hwrong⟩
    exact ⟨_, step_of_wrong_ending hc hterm hwrong, rfl, rfl⟩

end Sys2Proof.Machine
end
